-- ==== Sys2Proof/Word.lean ====
section
/-! DEFINITION. The words of the machine: a byte, a colour index, an RGB triple, the addresses of its spaces. -/

namespace Sys2Proof

/-- An 8-bit byte, bit 0 the least significant (00_scope.md R6). -/
abbrev Byte := BitVec 8

/-- A colour index, 0 to 7 (30_encoding.md R54, R56). -/
abbrev ColourIndex := BitVec 3

/-- A byte offset into BM, format BMADDR, 13 bits (30_encoding.md R52). -/
abbrev BmAddr := BitVec 13

/-- A byte offset into AM, format ATADDR, 10 bits (30_encoding.md R53). -/
abbrev AmAddr := BitVec 10

/-- A pixel index of RASTER, 16 bits (20_memory.md R35, 10_state.md R22). -/
abbrev RasterAddr := BitVec 16

/-- An RGB triple: three unsigned 8-bit channels in the order red, green, blue (20_memory.md R37, 30_encoding.md R57). -/
structure RGB where
  red   : Byte
  green : Byte
  blue  : Byte
deriving DecidableEq, Repr, Inhabited

/-- A colour table: the RGB triple of each colour index at each brightness, `true` for the bright variant
(10_state.md R13). -/
abbrev Palette := ColourIndex → Bool → RGB

end Sys2Proof
end

