-- ==== Sys2Proof/Config.lean ====
section
/-! DEFINITION. What an implementation fixes: the hardware constants of 00_scope.md R3 and the open parameters of R4. -/

namespace Sys2Proof.Config

/-- W, the raster width in pixels (00_scope.md R3). -/
@[simp] def width : Nat := 256

/-- H, the raster height in pixels (00_scope.md R3). -/
@[simp] def height : Nat := 192

/-- NPIX = W * H, the number of pixel computations (00_scope.md R3). -/
@[simp] def numPixels : Nat := 49152

/-- COLS, bytes per bitmap row and per attribute row (00_scope.md R3). -/
@[simp] def cols : Nat := 32

/-- BM_SIZE = 192 * 32, bytes of bitmap memory (00_scope.md R3). -/
@[simp] def bmSize : Nat := 6144

/-- AM_SIZE = 24 * 32, bytes of attribute memory (00_scope.md R3). -/
@[simp] def amSize : Nat := 768

/-- CELL, the side of an attribute cell in pixels, also the pixels of one bitmap byte (00_scope.md R3). -/
@[simp] def cell : Nat := 8

/-- BLOCK_H, scanlines per block (00_scope.md R3). -/
@[simp] def blockHeight : Nat := 64

/-- BM_START, the snapshot offset of bitmap memory (00_scope.md R3, 20_memory.md R32). -/
@[simp] def bmStart : Nat := 27

/-- AM_START = BM_START + BM_SIZE, the snapshot offset of attribute memory (00_scope.md R3, 20_memory.md R32). -/
@[simp] def amStart : Nat := 6171

/-- SNAP_MIN = AM_START + AM_SIZE, the least length of a snapshot (00_scope.md R3). -/
@[simp] def snapMin : Nat := 6939

/-- The entries of PALETTE that the spec leaves open, a free value: nothing constrains it (10_state.md R13,
91_not_in_source.md N1, 93_implementation_defined.md U3). DESIGN CHOICE, safe: log entry 4.
`Sys2Proof.Machine.palette` puts the three sourced entries over it. -/
opaque freePalette : Palette

/-- HAS_ALPHA, whether a pixel carries a fourth channel; left open by the spec, so a free value
(00_scope.md R4, 20_memory.md R37). DESIGN CHOICE, safe: log entry 5. -/
opaque hasAlpha : Bool

/-- The alpha channel where there is one: opaque (20_memory.md R37). -/
@[simp] def alphaValue : Byte := 255

/-- The default value of the parameter PALETTE, by R14's formula: L = 255 if bright else 215, bit 1 of the index
switches red, bit 2 green, bit 0 blue (10_state.md R14). No meaning uses it: a claim about the default palette names it. -/
def defaultPalette : Palette := fun index bright =>
  let level : Byte := if bright then 255 else 215
  { red   := if index.getLsbD 1 then level else 0
    green := if index.getLsbD 2 then level else 0
    blue  := if index.getLsbD 0 then level else 0 }

end Sys2Proof.Config
end

