-- ==== Sys2Proof/Syntax.lean ====
section
/-! DEFINITION. The operation set (30_encoding.md R64), one constructor per row of spec/opcode_table.json, and the
requests by which the host selects an operation (R50). -/

namespace Sys2Proof

/-- The twelve operations of 30_encoding.md R64 with their operands, x before y (R63). Coordinates are natural
numbers, as in the spec's abstract operations (00_scope.md section 5): the ports carry only those below 256. -/
inductive Instr where
  /-- `LOAD S` (40_loader.md R70 to R75): copy the two regions of a snapshot. -/
  | load (snap : List Byte)
  /-- `XLATE x, y -> off` (41_address_translator.md R80 to R88): the offset in BM of the byte that holds a pixel. -/
  | xlate (x y : Nat)
  /-- `BMREAD x, y -> byte` (41_address_translator.md R90): the bitmap byte that holds a pixel. -/
  | bmread (x y : Nat)
  /-- `ATTRDEC a -> bright, paperIndex, inkIndex` (42_color_palette.md R100). -/
  | attrdec (a : Byte)
  /-- `PALLUT index, bright -> rgb` (42_color_palette.md R101). -/
  | pallut (index : ColourIndex) (bright : Bool)
  /-- `CRESOLVE a -> paper, ink` (42_color_palette.md R102). -/
  | cresolve (a : Byte)
  /-- `CELL x, y -> aoff` (43_compositor.md R120): the offset in AM of a pixel's attribute byte. -/
  | cell (x y : Nat)
  /-- `ATREAD x, y -> a` (43_compositor.md R121): the attribute byte that governs a pixel. -/
  | atread (x y : Nat)
  /-- `BITSEL byte, x -> bit` (43_compositor.md R122). -/
  | bitsel (byte : Byte) (x : Nat)
  /-- `PIXEL x, y` (43_compositor.md R123): compose one pixel into RASTER. -/
  | pixel (x y : Nat)
  /-- `FRAME` (43_compositor.md R125): compose the whole raster. -/
  | frame
  /-- `RENDER S` (43_compositor.md R130): LOAD, then FRAME. -/
  | render (snap : List Byte)
deriving DecidableEq, Repr

/-- The port group (sub-block input) through which an operation is requested: "an operation is selected by which
sub-block (port group) is used, never by bits in a word" (30_encoding.md R50). Names, not numbers: the spec assigns
no opcode numbers (92_eei_decisions.md D13). -/
inductive PortGroup where
  | load | xlate | bmread | attrdec | pallut | cresolve | cell | atread | bitsel | pixel | frame | render
deriving DecidableEq, Repr

/-- What the host puts on a port group: the bytes its input ports carry, in the operand order of 30_encoding.md R63
(DESIGN CHOICE: log entry 8). A coordinate is the byte of X and then the byte of Y, which are the low and the high
byte of the COORD word (R51). -/
structure Request where
  group   : PortGroup
  operand : List Byte
deriving DecidableEq, Repr

/-- Why a request is no operation (DESIGN CHOICE: log entry 10). -/
inductive DecodeError where
  /-- The port group does not take this many bytes. -/
  | operandLength (group : PortGroup) (got : Nat)
  /-- Bits 7:4 of PALLUT's byte are not zero: PALADDR has four bits (30_encoding.md R56). -/
  | unusedBits (group : PortGroup) (byte : Byte)
deriving DecidableEq, Repr

end Sys2Proof
end

