-- ==== Sys2Proof/WellFormed.lean ====
section
/-! DEFINITION. Which instructions the ports can carry: the width checks of 10_state.md R22. -/

namespace Sys2Proof

/-- A coordinate operand fits the 8-bit ports X and Y (10_state.md R22). A y of 192 to 255 fits: it is the operation
that raises CoordinateRange (30_encoding.md R61). -/
def coordFits (x y : Nat) : Bool := decide (x < 256) && decide (y < 256)

/-- The operands fit the ports. Bytes, colour indices and flags fit by their type; a snapshot may have any length
(10_state.md R22, SNAP_LEN "any n >= 0"). -/
def Instr.wf : Instr → Bool
  | .load _     => true
  | .xlate x y  => coordFits x y
  | .bmread x y => coordFits x y
  | .attrdec _  => true
  | .pallut _ _ => true
  | .cresolve _ => true
  | .cell x y   => coordFits x y
  | .atread x y => coordFits x y
  | .bitsel _ x => decide (x < 256)
  | .pixel x y  => coordFits x y
  | .frame      => true
  | .render _   => true

end Sys2Proof
end

