-- ==== Sys2Proof/Decode.lean ====
section
/-! DEFINITION. The decoder from a request (port group and port bytes) to an instruction, the encoder, and the operand
words of spec/opcode_table.json (30_encoding.md R50 to R58, R66). -/

namespace Sys2Proof

/-- The low eight bits of a number, as a byte. -/
def byteOf (n : Nat) : Byte := BitVec.ofNat 8 n

/-- The `k` lowest bytes of a number, the least significant first. -/
def lowBytes : Nat → Nat → List Byte
  | 0, _ => []
  | k + 1, w => byteOf w :: lowBytes k (w / 256)

/-- The COORD word `{y[7:0], x[7:0]}` (30_encoding.md R51), which is also the RASTER index (20_memory.md R35). -/
def coordWord (x y : Byte) : BitVec 16 := y ++ x

/-- The PALADDR byte `hiii`, bits 7:4 zero (30_encoding.md R56). -/
def palAddrByte (index : ColourIndex) (bright : Bool) : Byte := (0 : BitVec 4) ++ (BitVec.ofBool bright ++ index)

/-- An operation that takes the two ports X and Y. -/
def decodeCoord (g : PortGroup) (mk : Nat → Nat → Instr) : List Byte → Except DecodeError Instr
  | [x, y] => .ok (mk x.toNat y.toNat)
  | bs     => .error (.operandLength g bs.length)

/-- An operation that takes one attribute byte. -/
def decodeAttr (g : PortGroup) (mk : Byte → Instr) : List Byte → Except DecodeError Instr
  | [a] => .ok (mk a)
  | bs  => .error (.operandLength g bs.length)

/-- PALLUT takes one PALADDR byte. -/
def decodePallut : List Byte → Except DecodeError Instr
  | [b] => if b.extractLsb' 4 4 = 0 then .ok (.pallut (b.extractLsb' 0 3) (b.getLsbD 3)) else .error (.unusedBits .pallut b)
  | bs  => .error (.operandLength .pallut bs.length)

/-- BITSEL takes the bitmap byte and the port X. -/
def decodeBitsel : List Byte → Except DecodeError Instr
  | [b, x] => .ok (.bitsel b x.toNat)
  | bs     => .error (.operandLength .bitsel bs.length)

/-- FRAME takes no operand (30_encoding.md R66). -/
def decodeFrame : List Byte → Except DecodeError Instr
  | [] => .ok .frame
  | bs => .error (.operandLength .frame bs.length)

/-- The instruction a request selects: the port group names the operation, its bytes are the operand (30_encoding.md
R50). Total; a request of the wrong shape is rejected by name. -/
def decode (r : Request) : Except DecodeError Instr :=
  match r.group with
  | .load     => .ok (.load r.operand)
  | .xlate    => decodeCoord .xlate .xlate r.operand
  | .bmread   => decodeCoord .bmread .bmread r.operand
  | .attrdec  => decodeAttr .attrdec .attrdec r.operand
  | .pallut   => decodePallut r.operand
  | .cresolve => decodeAttr .cresolve .cresolve r.operand
  | .cell     => decodeCoord .cell .cell r.operand
  | .atread   => decodeCoord .atread .atread r.operand
  | .bitsel   => decodeBitsel r.operand
  | .pixel    => decodeCoord .pixel .pixel r.operand
  | .frame    => decodeFrame r.operand
  | .render   => .ok (.render r.operand)

/-- The two port bytes of a coordinate, X first (30_encoding.md R51, R63). -/
def encodeCoord (x y : Nat) : List Byte := [byteOf x, byteOf y]

/-- The request that selects an instruction. -/
def encode : Instr → Request
  | .load snap           => ⟨.load, snap⟩
  | .xlate x y           => ⟨.xlate, encodeCoord x y⟩
  | .bmread x y          => ⟨.bmread, encodeCoord x y⟩
  | .attrdec a           => ⟨.attrdec, [a]⟩
  | .pallut index bright => ⟨.pallut, [palAddrByte index bright]⟩
  | .cresolve a          => ⟨.cresolve, [a]⟩
  | .cell x y            => ⟨.cell, encodeCoord x y⟩
  | .atread x y          => ⟨.atread, encodeCoord x y⟩
  | .bitsel byte x       => ⟨.bitsel, [byte, byteOf x]⟩
  | .pixel x y           => ⟨.pixel, encodeCoord x y⟩
  | .frame               => ⟨.frame, []⟩
  | .render snap         => ⟨.render, snap⟩

/-- The request that an operand word of spec/opcode_table.json makes on a port group, `k` being the bytes the table
gives a COORD word: COORD is `{y, x}` (30_encoding.md R51), ATTR and PALADDR one byte (R54, R56), BITSEL's word
`{byte, x[2:0]}` (R66); LOAD's and RENDER's is one snapshot byte, FRAME has no operand (R66). -/
def wordRequest (k : Nat) (g : PortGroup) (w : Nat) : Request :=
  match g with
  | .load     => ⟨.load, [byteOf w]⟩
  | .xlate    => ⟨.xlate, lowBytes k w⟩
  | .bmread   => ⟨.bmread, lowBytes k w⟩
  | .attrdec  => ⟨.attrdec, [byteOf w]⟩
  | .pallut   => ⟨.pallut, [byteOf w]⟩
  | .cresolve => ⟨.cresolve, [byteOf w]⟩
  | .cell     => ⟨.cell, lowBytes k w⟩
  | .atread   => ⟨.atread, lowBytes k w⟩
  | .bitsel   => ⟨.bitsel, [byteOf (w / 8), byteOf (w % 8)]⟩
  | .pixel    => ⟨.pixel, lowBytes k w⟩
  | .frame    => ⟨.frame, []⟩
  | .render   => ⟨.render, [byteOf w]⟩

/-- The port group a table word of `nbits` bits is given to when nothing else names one: the first row of
spec/opcode_table.json whose whole operand is one word of that width. DESIGN CHOICE: log entry 9 (the table's words hold no bit
that selects an operation, 30_encoding.md R50). -/
def widthGroup (nbits : Nat) : PortGroup :=
  if nbits ≤ 4 then .pallut else if nbits ≤ 8 then .attrdec else if nbits ≤ 11 then .bitsel else .xlate

/-- The request of a table word of `nbits` bits with no port group named; bits from `nbits` up are zero. -/
def tableRequest (nbits w : Nat) : Request := wordRequest ((nbits + 7) / 8) (widthGroup nbits) (w % 2 ^ nbits)

/-- The instruction the decoder reads from a table word of `nbits` bits (log entry 9). -/
def decodeTableWord (nbits w : Nat) : Option Instr :=
  match decode (tableRequest nbits w) with
  | .ok i    => some i
  | .error _ => none

end Sys2Proof
end

