-- ==== Sys2Proof/Machine/State.lean ====
section
/-! DEFINITION. The machine's state as plain data, its reset, and the names of everything that stops a step. -/

namespace Sys2Proof.Machine

/-- The value of the status flag FAULT (10_state.md R17) with the value recorded by each fault (60_exceptions.md R150). -/
inductive FaultFlag where
  | none
  /-- The snapshot of length `n` is shorter than 6939 bytes (60_exceptions.md R151). -/
  | formatError (n : Nat)
  /-- A coordinate with x >= 256 or y >= 192 (60_exceptions.md R152). -/
  | coordinateRange (x y : Nat)
  /-- BM and AM were to be read while LOADED = 0 (60_exceptions.md R153). -/
  | notLoaded
deriving DecidableEq, Repr

/-- What the last operation or host read gave back on the block's output ports, with the widths of 10_state.md R22.
The MODEL's own field, no state of the spec (DESIGN CHOICE: log entry 2). -/
inductive Result where
  /-- Nothing was given back. -/
  | none
  /-- XLATE's offset, port BM_ADDR. -/
  | bmAddr (off : BmAddr)
  /-- BMREAD's byte, port BM_DATA. -/
  | bmData (byte : Byte)
  /-- ATTRDEC's three fields. -/
  | attrFields (bright : Bool) (paperIndex inkIndex : ColourIndex)
  /-- PALLUT's colour. -/
  | rgb (colour : RGB)
  /-- CRESOLVE's pair, ports PAPER_RGB and INK_RGB. -/
  | colours (paper ink : RGB)
  /-- CELL's offset, port AM_ADDR. -/
  | amAddr (off : AmAddr)
  /-- ATREAD's attribute byte, port AM_DATA. -/
  | amData (a : Byte)
  /-- BITSEL's bit, port PIX_BIT. -/
  | pixBit (bit : Bool)
  /-- The host's read of STATUS. -/
  | status (loaded done : Bool) (fault : FaultFlag)
  /-- The host's read of one pixel: its bytes (20_memory.md R37). -/
  | pixel (bytes : List Byte)
  /-- The host's read of the whole raster: its byte sequence (20_memory.md R37). -/
  | raster (bytes : List Byte)
deriving DecidableEq, Repr

/-- The host's moves (60_exceptions.md R162). -/
inductive HostMove where
  /-- Use a port group: one of the twelve operations. -/
  | operation (r : Request)
  /-- Reset (70_reset_and_hazards.md R170). -/
  | reset
  /-- Read STATUS. -/
  | readStatus
  /-- Read the pixel at an index of RASTER. -/
  | readPixel (p : Nat)
  /-- Read the whole raster. -/
  | readRaster
deriving DecidableEq, Repr

/-- The address spaces that hold values (20_memory.md R30). -/
inductive Space where
  | bm | am | raster
deriving DecidableEq, Repr

/-- The state: the six items of 10_state.md R10, and two fields of the model's own. BM, AM and RASTER are lists of
address and value, addresses rising; an address that is not listed holds no value (R23). -/
structure State where
  /-- BM, the bitmap memory (R11). -/
  bm : List Host.Cell
  /-- AM, the attribute memory (R12). -/
  am : List Host.Cell
  /-- RASTER, the output raster (R15). -/
  raster : List (Nat × RGB)
  /-- LOADED (R17). -/
  loaded : Bool
  /-- DONE (R17). -/
  done : Bool
  /-- FAULT (R17). -/
  fault : FaultFlag
  /-- Model's own: what the last move gave back (log entry 2). -/
  result : Result
  /-- Model's own: the host's moves not yet served, oldest first (log entry 1). -/
  pending : List HostMove
deriving DecidableEq, Repr

/-- The state right after reset, which is also power-on (10_state.md R23, 70_reset_and_hazards.md R170, R171). The
model's own two fields are empty (log entries 1 and 2). -/
def State.reset : State :=
  { bm := [], am := [], raster := [], loaded := false, done := false, fault := .none, result := .none, pending := [] }

/-- What stops the machine. The spec's own faults are not here: they are values of the flag FAULT (log entry 3). -/
inductive Fault where
  /-- Raised by a read of BM, AM or RASTER at an address that holds no value (10_state.md R23). Safe; no state with the
  invariant `State.Inv` comes to it (log entry 7). -/
  | noValue (space : Space) (address : Nat)
  /-- Raised by an access outside a space, which "has no meaning" (20_memory.md R39): the host's read of a pixel index
  of 49152 or more, and no operation. Safe (log entry 7). -/
  | outOfSpace (space : Space) (address : Nat)
deriving DecidableEq, Repr

/-- Why a move has no step ("is refused"). -/
inductive Refusal where
  /-- Answered by an arm of `exec` for an instruction that has no meaning yet; no arm does. Safe. -/
  | notModelled (mnemonic : String)
  /-- Answered by every operation while FAULT is not none (60_exceptions.md R159). Safe: the spec gives it no step. -/
  | faultPending
  /-- Answered by LOAD while LOADED = 1 (40_loader.md R70). Safe: the spec gives it no step. -/
  | alreadyLoaded
  /-- Answered by RENDER outside the reset state (43_compositor.md R130, 60_exceptions.md R162). Safe: the spec gives
  it no step. -/
  | notResetState
  /-- Answered by the host's read of RASTER unless DONE = 1 and FAULT = none (60_exceptions.md R162). Safe. -/
  | rasterNotReadable
  /-- Answered by `step` for a request of a shape its port group does not take (log entry 10). Safe. -/
  | undecodable (e : DecodeError)
deriving DecidableEq, Repr

end Sys2Proof.Machine
end

