-- ==== Sys2Proof/Machine/Ops.lean ====
section
/-! DEFINITION. The named operations over the memories, and raising a fault. -/

namespace Sys2Proof.Machine

/-- The outcome of one step of this machine. -/
abbrev Outcome := Host.Outcome State Fault Refusal

/-- The value at an address, or nothing where the address holds no value (20_memory.md R39). -/
def Memory.read {α : Type} : List (Nat × α) → Nat → Option α
  | [], _ => none
  | (b, v) :: m, a => if b = a then some v else Memory.read m a

/-- Set the value at an address (20_memory.md R39), keeping the addresses rising. -/
def Memory.write {α : Type} : List (Nat × α) → Nat → α → List (Nat × α)
  | [], a, v => [(a, v)]
  | (b, w) :: m, a, v =>
    if a < b then (a, v) :: (b, w) :: m
    else if a = b then (a, v) :: m
    else (b, w) :: Memory.write m a v

/-- The addresses rise strictly, the first is `lo` or more and all are below `size`. -/
def Memory.risingBelow {α : Type} (size : Nat) : Nat → List (Nat × α) → Bool
  | _, [] => true
  | lo, (a, _) :: m => decide (lo ≤ a) && decide (a < size) && Memory.risingBelow size (a + 1) m

/-- The canonical form of a space of `size` addresses: addresses strictly rising, all inside the space. An unlisted
address holds no value, so no entry can equal what it reads as. -/
def Memory.wf {α : Type} (size : Nat) (m : List (Nat × α)) : Bool := Memory.risingBelow size 0 m

/-- The cells that hold a list of values from an address on. -/
def Memory.cellsFrom {α : Type} : Nat → List α → List (Nat × α)
  | _, [] => []
  | a, v :: vs => (a, v) :: Memory.cellsFrom (a + 1) vs

/-- A whole space filled with a list of values from address 0. -/
def Memory.ofList {α : Type} (vs : List α) : List (Nat × α) := Memory.cellsFrom 0 vs

/-- Read one unit of a space of `size` addresses. An address outside it, or one that holds no value, is a fault of the
model (20_memory.md R39, 10_state.md R23; log entry 7). -/
def readSpace {α : Type} (space : Space) (size : Nat) (m : List (Nat × α)) (a : Nat) : Except Fault α :=
  if a < size then
    match Memory.read m a with
    | some v => .ok v
    | none   => .error (.noValue space a)
  else .error (.outOfSpace space a)

/-- `MemRead(BM, a, 1)` (20_memory.md R39). -/
def readBm (s : State) (a : Nat) : Except Fault Byte := readSpace .bm Config.bmSize s.bm a

/-- `MemRead(AM, a, 1)` (20_memory.md R39). -/
def readAm (s : State) (a : Nat) : Except Fault Byte := readSpace .am Config.amSize s.am a

/-- The pixel at an index of RASTER. -/
def readRaster (s : State) (p : Nat) : Except Fault RGB := readSpace .raster Config.numPixels s.raster p

/-- `RASTER[p] <- rgb` (20_memory.md R39). -/
def writeRaster (s : State) (p : Nat) (c : RGB) : State := { s with raster := Memory.write s.raster p c }

/-- Evaluate `f` at each number of a list, stopping at the first fault. -/
def collect {α : Type} (f : Nat → Except Fault α) : List Nat → Except Fault (List α)
  | [] => .ok []
  | n :: ns =>
    match f n with
    | .error e => .error e
    | .ok v =>
      match collect f ns with
      | .error e => .error e
      | .ok vs   => .ok (v :: vs)

/-- Go on with a value read, or stop with the fault of the read. -/
def deliver {α : Type} (r : Except Fault α) (k : α → Outcome) : Outcome :=
  match r with
  | .ok v    => k v
  | .error f => .fault f

/-- An operation that writes no state and gives back a result. -/
def give (r : Result) (s : State) : Outcome := .next { s with result := r }

/-- `raise F(info)`: FAULT takes the fault with its recorded value and nothing else of the state is written; no result is
given back (60_exceptions.md R157). There is no handler to go to and no return from it (R158, R159): the only way on is
`resetBlock`. -/
def raise (f : FaultFlag) (s : State) : Outcome := .next { s with fault := f, result := .none }

/-- Reset: the reset state, whatever stood before (70_reset_and_hazards.md R170). The host's later moves still stand
(log entry 1). -/
def resetBlock (s : State) : Outcome := .next { State.reset with pending := s.pending }

end Sys2Proof.Machine
end

