-- ==== Sys2Proof/Machine/Flags.lean ====
section
/-! DEFINITION. The status flags LOADED, DONE and FAULT: what each gates (10_state.md R17). The hardware has no
arithmetic flags (R17). -/

namespace Sys2Proof.Machine

/-- The number of a fault (60_exceptions.md R150): a label, nothing computes with it. -/
def faultCode : FaultFlag → Option Nat
  | .none                => none
  | .formatError _       => some 1
  | .coordinateRange _ _ => some 2
  | .notLoaded           => some 3

/-- Admission: "every operation needs FAULT = none" (10_state.md R17); otherwise it has no step (60_exceptions.md R159). -/
def whenAdmitted (s : State) (k : Outcome) : Outcome := if s.fault = .none then k else .refused .faultPending

/-- The operations that read BM or AM need LOADED = 1, else they raise NotLoaded (60_exceptions.md R153). -/
def whenLoaded (s : State) (k : Outcome) : Outcome := if s.loaded = true then k else raise .notLoaded s

/-- LOAD needs LOADED = 0, else it has no step (40_loader.md R70). -/
def whenNotLoaded (s : State) (k : Outcome) : Outcome := if s.loaded = false then k else .refused .alreadyLoaded

/-- RENDER needs the reset state (43_compositor.md R130). FAULT = none is checked by `whenAdmitted`. -/
def whenFresh (s : State) (k : Outcome) : Outcome :=
  if s.loaded = false ∧ s.done = false then k else .refused .notResetState

/-- The host may read RASTER only when DONE = 1 and FAULT = none (60_exceptions.md R162). -/
def whenReadable (s : State) (k : Outcome) : Outcome :=
  if s.done = true ∧ s.fault = .none then k else .refused .rasterNotReadable

/-- Go on from a next state unless it holds a fault (43_compositor.md R130: "may raise FormatError(n): then stop"). -/
def thenUnlessFaulted (o : Outcome) (k : State → Outcome) : Outcome :=
  match o with
  | .next t    => if t.fault = .none then k t else .next t
  | .fault f   => .fault f
  | .refused r => .refused r

end Sys2Proof.Machine
end

