-- ==== Sys2Proof/Machine/Operands.lean ====
section
/-! DEFINITION. The operand forms: coordinates, addresses, attribute and bitmap bytes, the palette and pixel formats
(30_encoding.md R51 to R60). -/

namespace Sys2Proof.Machine

/-- The coordinate range check: x in [0,256) and y in [0,192), else CoordinateRange(x, y); never clamped or wrapped
(41_address_translator.md R85). -/
def whenInRange (x y : Nat) (s : State) (k : Outcome) : Outcome :=
  if x < Config.width ∧ y < Config.height then k else raise (.coordinateRange x y) s

/-- `y div 64`: which third of the screen (41_address_translator.md R81). -/
def block (y : Nat) : Nat := y / Config.blockHeight

/-- `y mod 64`: the position within the third (41_address_translator.md R81). -/
def blockOffset (y : Nat) : Nat := y % Config.blockHeight

/-- `blockOffset mod 8`: the pixel row within the character cell (41_address_translator.md R81). -/
def charRow (y : Nat) : Nat := blockOffset y % Config.cell

/-- `blockOffset div 8`: the character row within the block (41_address_translator.md R81). -/
def charIndex (y : Nat) : Nat := blockOffset y / Config.cell

/-- The row of the bitmap grid that holds display row y (41_address_translator.md R82). -/
def memRow (y : Nat) : Nat := block y * Config.blockHeight + charRow y * Config.cell + charIndex y

/-- The column of the bitmap grid that holds pixel column x (41_address_translator.md R83). -/
def memCol (x : Nat) : Nat := x / Config.cell

/-- The position of row r, column c in a grid of 32 columns laid out row by row: `BM2[r][c] = BM[r*32 + c]` and
`AM2[r][c] = AM[r*32 + c]` (20_memory.md R33, R34). -/
def gridOffset (r c : Nat) : Nat := r * Config.cols + c

/-- The offset in BM of the byte that holds pixel (x, y) (41_address_translator.md R84, 20_memory.md R33). -/
def bmOffset (x y : Nat) : Nat := gridOffset (memRow y) (memCol x)

/-- The column of the attribute cell, `x div 8` (43_compositor.md R120). -/
def cellX (x : Nat) : Nat := x / Config.cell

/-- The row of the attribute cell, `y div 8` (43_compositor.md R120). -/
def cellY (y : Nat) : Nat := y / Config.cell

/-- The offset in AM of the attribute byte of pixel (x, y) (43_compositor.md R120, 20_memory.md R34). -/
def amOffset (x y : Nat) : Nat := gridOffset (cellY y) (cellX x)

/-- The index in RASTER of pixel (x, y) (20_memory.md R35). -/
def rasterIndex (x y : Nat) : Nat := y * Config.width + x

/-- The column of the pixel at an index of RASTER (20_memory.md R35). -/
def rasterX (p : Nat) : Nat := p % Config.width

/-- The row of the pixel at an index of RASTER (20_memory.md R35). -/
def rasterY (p : Nat) : Nat := p / Config.width

/-- The bit of a bitmap byte that belongs to column x, bit `7 - (x mod 8)` (20_memory.md R36, 43_compositor.md R122). -/
def bitOf (byte : Byte) (x : Nat) : Bool := byte.getLsbD (7 - x % Config.cell)

/-- Attribute bit 6 (30_encoding.md R54). -/
def attrBright (a : Byte) : Bool := a.getLsbD 6

/-- Attribute bits 5:3 (30_encoding.md R54). -/
def attrPaper (a : Byte) : ColourIndex := a.extractLsb' 3 3

/-- Attribute bits 2:0 (30_encoding.md R54). -/
def attrInk (a : Byte) : ColourIndex := a.extractLsb' 0 3

/-- PALETTE: the three entries the source fixes, and the free value elsewhere (10_state.md R13; log entry 4). -/
def palette (index : ColourIndex) (bright : Bool) : RGB :=
  if index = 0 ∧ bright = false then ⟨0, 0, 0⟩
  else if index = 2 ∧ bright = false then ⟨215, 0, 0⟩
  else if index = 7 ∧ bright = true then ⟨255, 255, 255⟩
  else Config.freePalette index bright

/-- The (paper, ink) pair of an attribute byte under a palette; one brightness flag governs both
(42_color_palette.md R102, R105). -/
def resolve (pal : Palette) (a : Byte) : RGB × RGB :=
  (pal (attrPaper a) (attrBright a), pal (attrInk a) (attrBright a))

/-- A pixel as its 24-bit word `{R, G, B}` (20_memory.md R37). -/
def rgbWord (c : RGB) : BitVec 24 := c.red ++ c.green ++ c.blue

/-- A pixel as its 32-bit word `{R, G, B, A}` (20_memory.md R37). -/
def rgbaWord (c : RGB) : BitVec 32 := rgbWord c ++ Config.alphaValue

/-- What port RASTER_DATA carries (10_state.md R22): the three channels, 24 bits, and a fourth where there is one, 32
bits. -/
structure RasterData where
  colour : RGB
  alpha  : Option Byte
deriving DecidableEq, Repr

/-- Port RASTER_DATA of a pixel: A = 255 is there exactly where the parameter HAS_ALPHA is true (10_state.md R22,
20_memory.md R37). -/
def rasterDataPort (alpha : Bool) (c : RGB) : RasterData :=
  { colour := c, alpha := if alpha then some Config.alphaValue else none }

/-- The width of port RASTER_DATA and its word, `{R, G, B}` or `{R, G, B, A}` (10_state.md R22, 20_memory.md R37). -/
def rasterDataWord (d : RasterData) : (width : Nat) × BitVec width :=
  match d.alpha with
  | none   => ⟨24, rgbWord d.colour⟩
  | some a => ⟨32, rgbWord d.colour ++ a⟩

/-- The bytes of a pixel on port RASTER_DATA, the alpha byte last where there is one (20_memory.md R37). -/
def rasterDataBytes (d : RasterData) : List Byte := d.colour.red :: d.colour.green :: d.colour.blue :: d.alpha.toList

/-- A pixel as its bytes: those RASTER_DATA carries for it (20_memory.md R37). -/
def pixelBytes (alpha : Bool) (c : RGB) : List Byte := rasterDataBytes (rasterDataPort alpha c)

/-- A list of pixels as a byte sequence (20_memory.md R37). -/
def rasterBytes (alpha : Bool) : List RGB → List Byte
  | [] => []
  | c :: cs => pixelBytes alpha c ++ rasterBytes alpha cs

/-- Port BM_ADDR, 13 bits (10_state.md R22). -/
def bmAddrPort (x y : Nat) : BmAddr := BitVec.ofNat 13 (bmOffset x y)

/-- Port AM_ADDR, 10 bits (10_state.md R22). -/
def amAddrPort (x y : Nat) : AmAddr := BitVec.ofNat 10 (amOffset x y)

/-- Port RASTER_ADDR, 16 bits (10_state.md R22). -/
def rasterAddrPort (x y : Nat) : RasterAddr := BitVec.ofNat 16 (rasterIndex x y)

end Sys2Proof.Machine
end

