-- ==== Sys2Proof/Machine/Loader.lean ====
section
/-! DEFINITION. The load interface: LOAD (40_loader.md). -/

namespace Sys2Proof.Machine

/-- The bytes `[27, 27+6144)` of a snapshot (40_loader.md R72). -/
def snapBitmap (snap : List Byte) : List Byte := (snap.drop Config.bmStart).take Config.bmSize

/-- The bytes `[6171, 6171+768)` of a snapshot (40_loader.md R72). -/
def snapAttributes (snap : List Byte) : List Byte := (snap.drop Config.amStart).take Config.amSize

/-- The length check, then the copy of both regions and LOADED <- 1; on FormatError nothing but FAULT is written
(40_loader.md R71 to R73). -/
def loadSnapshot (snap : List Byte) (s : State) : Outcome :=
  if snap.length < Config.snapMin then raise (.formatError snap.length) s
  else .next { s with
    bm := Memory.ofList (snapBitmap snap)
    am := Memory.ofList (snapAttributes snap)
    loaded := true
    result := .none }

/-- LOAD S (40_loader.md R70 to R75). -/
def execLoad (snap : List Byte) (s : State) : Outcome := whenAdmitted s (whenNotLoaded s (loadSnapshot snap s))

end Sys2Proof.Machine
end

