-- ==== Sys2Proof/Machine/Compositor.lean ====
section
/-! DEFINITION. framebuffer_compositor: CELL, ATREAD, BITSEL, PIXEL, FRAME, and the entry point RENDER
(43_compositor.md). -/

namespace Sys2Proof.Machine

/-- What the ports between the sub-blocks carry while one pixel is composed (10_state.md R22). They hold nothing
afterwards. -/
structure PixelPorts where
  bmAddr     : BmAddr
  amAddr     : AmAddr
  bmData     : Byte
  amData     : Byte
  paperRgb   : RGB
  inkRgb     : RGB
  pixBit     : Bool
  rasterAddr : RasterAddr
  rasterData : RasterData
deriving DecidableEq, Repr

/-- The ports of the pixel (x, y) once its attribute byte and its bitmap byte are read (43_compositor.md R123);
RASTER_DATA by the parameter HAS_ALPHA (10_state.md R22). -/
def pixelPorts (pal : Palette) (x y : Nat) (a byte : Byte) : PixelPorts :=
  { bmAddr     := bmAddrPort x y
    amAddr     := amAddrPort x y
    bmData     := byte
    amData     := a
    paperRgb   := (resolve pal a).1
    inkRgb     := (resolve pal a).2
    pixBit     := bitOf byte x
    rasterAddr := rasterAddrPort x y
    rasterData := rasterDataPort Config.hasAlpha (if bitOf byte x then (resolve pal a).2 else (resolve pal a).1) }

/-- The datapath of one pixel: read AM, read BM, resolve, test the bit, select (43_compositor.md R123). -/
def composePixel (pal : Palette) (s : State) (x y : Nat) : Except Fault PixelPorts :=
  match readAm s (amAddrPort x y).toNat with
  | .error f => .error f
  | .ok a =>
    match readBm s (bmAddrPort x y).toNat with
    | .error f => .error f
    | .ok byte => .ok (pixelPorts pal x y a byte)

/-- The colour of the pixel at an index of RASTER. -/
def pixelColourAt (pal : Palette) (s : State) (p : Nat) : Except Fault RGB :=
  match composePixel pal s (rasterX p) (rasterY p) with
  | .error f  => .error f
  | .ok ports => .ok ports.rasterData.colour

/-- The colours of all 49152 pixels, in raster order (43_compositor.md R125, R126). -/
def frameColours (pal : Palette) (s : State) : Except Fault (List RGB) :=
  collect (pixelColourAt pal s) (List.range Config.numPixels)

/-- The join, which ends FRAME and sets DONE (43_compositor.md R127, 20_memory.md R43). -/
def join (s : State) : Outcome := .next { s with done := true, result := .none }

/-- Compose the whole raster as the one function of (x, y) that 43_compositor.md R126 allows, then the join. -/
def composeFrame (s : State) : Outcome :=
  whenLoaded s (deliver (frameColours palette s) fun cs => join { s with raster := Memory.ofList cs })

/-- CELL x, y -> aoff (43_compositor.md R120): reads no state, needs no LOAD. -/
def execCell (x y : Nat) (s : State) : Outcome :=
  whenAdmitted s (whenInRange x y s (give (.amAddr (amAddrPort x y)) s))

/-- ATREAD x, y -> a (43_compositor.md R121): NotLoaded is checked first, then the range. -/
def execAtread (x y : Nat) (s : State) : Outcome :=
  whenAdmitted s (whenLoaded s (whenInRange x y s
    (deliver (readAm s (amAddrPort x y).toNat) fun a => give (.amData a) s)))

/-- BITSEL byte, x -> bit (43_compositor.md R122): only x mod 8 matters, faultless. -/
def execBitsel (byte : Byte) (x : Nat) (s : State) : Outcome :=
  whenAdmitted s (give (.pixBit (bitOf byte x)) s)

/-- PIXEL x, y (43_compositor.md R123, R124): NotLoaded, then CoordinateRange, then the one pixel is written. RASTER keeps
the three channels (10_state.md R10); the fourth of RASTER_DATA is a constant (log entry 5). -/
def execPixel (x y : Nat) (s : State) : Outcome :=
  whenAdmitted s (whenLoaded s (whenInRange x y s
    (deliver (composePixel palette s x y) fun ports =>
      give .none (writeRaster s ports.rasterAddr.toNat ports.rasterData.colour))))

/-- FRAME (43_compositor.md R125 to R128). -/
def execFrame (s : State) : Outcome := whenAdmitted s (composeFrame s)

/-- RENDER S (43_compositor.md R130, R131): from the reset state, LOAD and, if that did not fault, FRAME. -/
def execRender (snap : List Byte) (s : State) : Outcome :=
  whenAdmitted s (whenFresh s (thenUnlessFaulted (loadSnapshot snap s) composeFrame))

/-- RENDER's result as the entry point's type has it: the raster, or the fault (43_compositor.md R130). -/
def renderResult (s : State) : Except FaultFlag (List (Nat × RGB)) :=
  if s.fault = .none then .ok s.raster else .error s.fault

end Sys2Proof.Machine
end

