-- ==== Sys2Proof/Machine/PaletteLut.lean ====
section
/-! DEFINITION. color_palette_lut: ATTRDEC, PALLUT and CRESOLVE (42_color_palette.md). All three are faultless. -/

namespace Sys2Proof.Machine

/-- ATTRDEC a -> bright, paperIndex, inkIndex (42_color_palette.md R100). -/
def execAttrdec (a : Byte) (s : State) : Outcome :=
  whenAdmitted s (give (.attrFields (attrBright a) (attrPaper a) (attrInk a)) s)

/-- PALLUT index, bright -> rgb (42_color_palette.md R101). -/
def execPallut (index : ColourIndex) (bright : Bool) (s : State) : Outcome :=
  whenAdmitted s (give (.rgb (palette index bright)) s)

/-- CRESOLVE a -> paper, ink (42_color_palette.md R102 to R106). -/
def execCresolve (a : Byte) (s : State) : Outcome :=
  whenAdmitted s (give (.colours (resolve palette a).1 (resolve palette a).2) s)

end Sys2Proof.Machine
end

