-- ==== Sys2Proof/Machine/Translator.lean ====
section
/-! DEFINITION. spectrum_address_translator: XLATE and BMREAD (41_address_translator.md). -/

namespace Sys2Proof.Machine

/-- XLATE x, y -> off (41_address_translator.md R80 to R85): reads no state, needs no LOAD. -/
def execXlate (x y : Nat) (s : State) : Outcome :=
  whenAdmitted s (whenInRange x y s (give (.bmAddr (bmAddrPort x y)) s))

/-- BMREAD x, y -> byte (41_address_translator.md R90): NotLoaded is checked first, then the range. -/
def execBmread (x y : Nat) (s : State) : Outcome :=
  whenAdmitted s (whenLoaded s (whenInRange x y s
    (deliver (readBm s (bmAddrPort x y).toNat) fun byte => give (.bmData byte) s)))

end Sys2Proof.Machine
end

