-- ==== Sys2Proof/Machine/Dispatch.lean ====
section
/-! DEFINITION. One arm per operation of 30_encoding.md R64. -/

namespace Sys2Proof.Machine

def exec (i : Instr) (s : State) : Host.Outcome State Fault Refusal :=
  match i with
  | .load snap => Sys2Proof.Machine.execLoad snap s
  | .xlate x y => Sys2Proof.Machine.execXlate x y s
  | .bmread x y => Sys2Proof.Machine.execBmread x y s
  | .attrdec a => Sys2Proof.Machine.execAttrdec a s
  | .pallut index bright => Sys2Proof.Machine.execPallut index bright s
  | .cresolve a => Sys2Proof.Machine.execCresolve a s
  | .cell x y => Sys2Proof.Machine.execCell x y s
  | .atread x y => Sys2Proof.Machine.execAtread x y s
  | .bitsel byte x => Sys2Proof.Machine.execBitsel byte x s
  | .pixel x y => Sys2Proof.Machine.execPixel x y s
  | .frame => Sys2Proof.Machine.execFrame s
  | .render snap => Sys2Proof.Machine.execRender snap s

end Sys2Proof.Machine
end

