-- ==== Sys2Proof/Machine/HostMoves.lean ====
section
/-! DEFINITION. Serving one move of the host (60_exceptions.md R162). -/

namespace Sys2Proof.Machine

/-- Read STATUS: it never fails (60_exceptions.md R162). -/
def serveReadStatus (s : State) : Outcome := give (.status s.loaded s.done s.fault) s

/-- Read the pixel at an index of RASTER (60_exceptions.md R162): its bytes, by the parameter HAS_ALPHA. -/
def serveReadPixel (p : Nat) (s : State) : Outcome :=
  whenReadable s (deliver (readRaster s p) fun c => give (.pixel (pixelBytes Config.hasAlpha c)) s)

/-- Read the whole raster (60_exceptions.md R162): its byte sequence, by the parameter HAS_ALPHA. -/
def serveReadRaster (s : State) : Outcome :=
  whenReadable s (deliver (collect (readRaster s) (List.range Config.numPixels)) fun cs =>
    give (.raster (rasterBytes Config.hasAlpha cs)) s)

/-- A request on a port group: the instruction it selects runs (30_encoding.md R50). -/
def serveOperation (r : Request) (s : State) : Outcome :=
  match decode r with
  | .ok i    => exec i s
  | .error e => .refused (.undecodable e)

/-- Serve one move of the host. -/
def serve (m : HostMove) (s : State) : Outcome :=
  match m with
  | .operation r => serveOperation r s
  | .reset       => resetBlock s
  | .readStatus  => serveReadStatus s
  | .readPixel p => serveReadPixel p s
  | .readRaster  => serveReadRaster s

/-- Take the oldest pending move and serve it; with none pending nothing happens (log entry 11). -/
def serveNext (s : State) : Outcome :=
  match s.pending with
  | []        => .next s
  | m :: rest => serve m { s with pending := rest }

/-- The state with a move put before all pending ones. -/
def State.withMove (s : State) (m : HostMove) : State := { s with pending := m :: s.pending }

end Sys2Proof.Machine
end

