-- ==== Sys2Proof/Machine/Step.lean ====
section
/-! DEFINITION. One step: the block serves the host's oldest move. -/

namespace Sys2Proof.Machine

/-- One step. The block has no program counter and fetches nothing (10_state.md R19): what runs next is the host's
oldest move (log entries 1 and 11). -/
def step (s : State) : Host.Outcome State Fault Refusal := serveNext s

/-- The state in which the instruction of a table word is the host's next move, so that the very next step runs it
(log entries 9 and 11). -/
def State.withFetchWord (s : State) (nbits w : Nat) : State := s.withMove (.operation (tableRequest nbits w))

end Sys2Proof.Machine
end

