-- ==== Sys2Proof/Machine/Schedule.lean ====
section
/-! DEFINITION. FRAME as its 49152 pixel steps and the join, in any order and divided among any number of workers
(43_compositor.md R125, R126; 20_memory.md R42 to R44). NWORKERS is the argument `workers`. -/

namespace Sys2Proof.Machine

/-- One pixel step, by one worker. -/
structure WorkItem where
  worker : Nat
  x      : Nat
  y      : Nat
deriving DecidableEq, Repr

/-- Run pixel steps in the order of a list. -/
def runWork : List WorkItem → State → Outcome
  | [], s => .next s
  | w :: ws, s =>
    match execPixel w.x w.y s with
    | .next t    => runWork ws t
    | .fault f   => .fault f
    | .refused r => .refused r

/-- FRAME by a schedule: the pixel steps, then the join. -/
def frameBySchedule (ws : List WorkItem) (s : State) : Outcome :=
  match runWork ws s with
  | .next t    => join t
  | .fault f   => .fault f
  | .refused r => .refused r

/-- A schedule of `workers` workers that assigns every pixel to exactly one of them: the coordinates of
[0,256) × [0,192), each once, in any order and any interleaving (20_memory.md R44). -/
def Schedule.valid (workers : Nat) (ws : List WorkItem) : Prop :=
  (∀ w ∈ ws, w.worker < workers) ∧
    (ws.map fun w => (w.x, w.y)).Perm ((List.range Config.numPixels).map fun p => (rasterX p, rasterY p))

/-- LOAD as its loop of single byte writes (40_loader.md R72): write the bytes of a list from an address on. -/
def writeBytesFrom : Nat → List Byte → List Host.Cell → List Host.Cell
  | _, [], m => m
  | a, b :: bs, m => writeBytesFrom (a + 1) bs (Memory.write m a b)

end Sys2Proof.Machine
end

