-- ==== Sys2Proof/Safety.lean ====
section
/-! DEFINITION. The invariant of the machine and the two ends of a conversion, in the terms claims use. -/

namespace Sys2Proof.Machine

/-- What every state a run reaches satisfies: the spaces are in canonical form; before a LOAD they hold no value and
DONE is 0; after it every byte of BM and AM holds one, and when DONE = 1 every pixel of RASTER does (10_state.md R24);
and every pixel that RASTER holds has the colour its own (x, y), BM and AM give it (43_compositor.md R124). -/
structure State.Inv (s : State) : Prop where
  bm_wf       : Memory.wf Config.bmSize s.bm = true
  am_wf       : Memory.wf Config.amSize s.am = true
  raster_wf   : Memory.wf Config.numPixels s.raster = true
  unloaded    : s.loaded = false → s.bm = [] ∧ s.am = [] ∧ s.raster = [] ∧ s.done = false
  bm_full     : s.loaded = true → ∀ a, a < Config.bmSize → (Memory.read s.bm a).isSome = true
  am_full     : s.loaded = true → ∀ a, a < Config.amSize → (Memory.read s.am a).isSome = true
  raster_full : s.done = true → ∀ p, p < Config.numPixels → (Memory.read s.raster p).isSome = true
  raster_ok   : ∀ p c, Memory.read s.raster p = some c → pixelColourAt palette s p = .ok c

/-- A completed conversion: LOADED = 1, DONE = 1, FAULT = none (70_reset_and_hazards.md R179). -/
def State.Completed (s : State) : Prop := s.loaded = true ∧ s.done = true ∧ s.fault = .none

/-- A faulted conversion: FAULT is not none (70_reset_and_hazards.md R179). -/
def State.Faulted (s : State) : Prop := s.fault ≠ .none

/-- The reset state but for the host's pending moves (10_state.md R23). -/
def State.AtReset (s : State) : Prop := s = { State.reset with pending := s.pending }

/-- The palette keeps the three entries the source fixes (10_state.md R13). -/
def AdmissiblePalette (pal : Palette) : Prop :=
  pal 0 false = ⟨0, 0, 0⟩ ∧ pal 7 true = ⟨255, 255, 255⟩ ∧ pal 2 false = ⟨215, 0, 0⟩

end Sys2Proof.Machine
end

