-- ==== Sys2Proof/Certificates/Slice0/Obligations.lean ====
section
/-! DEFINITION. The statements for the provers. Each docstring names the rule of spec/ it formalises. In every statement
the palette is the model's free one: what is said holds for every value of the entries the spec leaves open. -/

open Sys2Proof Sys2Proof.Machine

/-! ### Requests, words and the step -/

/-- Decoding the request of a well-formed instruction gives the instruction back, for every operand the ports carry
(30_encoding.md R50, R51, R54, R56, R66; the request form is the model's choice, log entry 8). -/
def Obligations.DecodeInvertsEncode : Prop :=
  ∀ i : Instr, i.wf = true → decode (encode i) = .ok i

/-- The other direction: a request that decodes is the request of the instruction it decodes to, which is well-formed; no
bit of a request is dropped (log entries 8 and 10). -/
def Obligations.EncodeInvertsDecode : Prop :=
  ∀ (r : Request) (i : Instr), decode r = .ok i → i.wf = true ∧ encode i = r

/-- The COORD word and its fields (30_encoding.md R51). -/
def Obligations.CoordWordFields : Prop :=
  ∀ x y : Byte,
    (coordWord x y).toNat = y.toNat * 256 + x.toNat ∧
    (coordWord x y).toNat = rasterIndex x.toNat y.toNat ∧
    ((coordWord x y).extractLsb' 14 2).toNat = y.toNat / 64 ∧
    ((coordWord x y).extractLsb' 11 3).toNat = y.toNat % 64 / 8 ∧
    ((coordWord x y).extractLsb' 8 3).toNat = y.toNat % 64 % 8 ∧
    ((coordWord x y).extractLsb' 3 5).toNat = x.toNat / 8 ∧
    ((coordWord x y).extractLsb' 0 3).toNat = x.toNat % 8 ∧
    (coordWord x y).extractLsb' 8 8 = y ∧
    (coordWord x y).extractLsb' 0 8 = x ∧
    ((coordWord x y).extractLsb' 8 6).toNat = y.toNat % 64 ∧
    ((coordWord x y).extractLsb' 11 5).toNat = y.toNat / 8 ∧
    (((coordWord x y).extractLsb' 14 2).toNat ≤ 2 ↔ y.toNat < 192)

/-- The slice forms of the three addresses (30_encoding.md R60): the bitmap address is the coordinate with the fields r
and c exchanged. -/
def Obligations.AddressesAreBitSlices : Prop :=
  ∀ x y : Byte, y.toNat < 192 →
    bmAddrPort x.toNat y.toNat = y.extractLsb' 6 2 ++ (y.extractLsb' 0 3 ++ (y.extractLsb' 3 3 ++ x.extractLsb' 3 5)) ∧
    amAddrPort x.toNat y.toNat = y.extractLsb' 3 5 ++ x.extractLsb' 3 5 ∧
    rasterAddrPort x.toNat y.toNat = y ++ x

/-- No port truncates a legal address, and no in-range operand leaves its space (20_memory.md R47, 10_state.md R22). -/
def Obligations.PortsCarryLegalAddressesWhole : Prop :=
  ∀ x y : Nat, x < 256 → y < 192 →
    memRow y < 192 ∧ memCol x < 32 ∧ cellY y < 24 ∧ cellX x < 32 ∧
    (bmAddrPort x y).toNat = memRow y * 32 + memCol x ∧ memRow y * 32 + memCol x < 6144 ∧
    (amAddrPort x y).toNat = cellY y * 32 + cellX x ∧ cellY y * 32 + cellX x < 768 ∧
    (rasterAddrPort x y).toNat = y * 256 + x ∧ y * 256 + x < 49152

/-- A few requests written out bit by bit decode to what they stand for (30_encoding.md R51, R54, R56, R66). -/
def Obligations.WrittenOutRequestsDecode : Prop :=
  decode ⟨.xlate, [0x00#8, 0x78#8]⟩ = .ok (.xlate 0 120) ∧
  decode ⟨.pixel, [0xFF#8, 0xBF#8]⟩ = .ok (.pixel 255 191) ∧
  decode ⟨.cresolve, [0x50#8]⟩ = .ok (.cresolve 0x50#8) ∧
  decode ⟨.pallut, [0x0A#8]⟩ = .ok (.pallut 2#3 true) ∧
  decode ⟨.bitsel, [0x80#8, 0xF8#8]⟩ = .ok (.bitsel 0x80#8 248) ∧
  decode ⟨.load, [0x01#8, 0x02#8]⟩ = .ok (.load [0x01#8, 0x02#8]) ∧
  decode ⟨.frame, []⟩ = .ok .frame

/-- A step runs the decoded instruction: it takes the oldest move off, and when that is a request that decodes it is
`exec` of the instruction on the rest (30_encoding.md R50; the list of moves is the model's, log entry 1). -/
def Obligations.StepRunsDecodedInstruction : Prop :=
  ∀ (s : State) (r : Request) (rest : List HostMove) (i : Instr),
    s.pending = .operation r :: rest → decode r = .ok i → step s = exec i { s with pending := rest }

/-- A request of a shape its port group does not take has no step (the model's choice, log entry 10). -/
def Obligations.UndecodableRequestIsRefused : Prop :=
  ∀ (s : State) (r : Request) (rest : List HostMove) (e : DecodeError),
    s.pending = .operation r :: rest → decode r = .error e → step s = .refused (.undecodable e)

/-- The instruction of a table word runs at the very next step (the model's choice, log entries 9 and 11). -/
def Obligations.TableWordRunsAtNextStep : Prop :=
  ∀ (s : State) (nbits w : Nat) (i : Instr),
    decodeTableWord nbits w = some i → step (s.withFetchWord nbits w) = exec i s

/-! ### LOAD -/

/-- LOAD writes all 6912 bytes of both regions and LOADED, or, from a snapshot shorter than 6939 bytes, none of them; it
writes nothing else (40_loader.md R72, R73). -/
def Obligations.LoadCopiesBothRegions : Prop :=
  ∀ (snap : List Byte) (s : State), s.fault = .none → s.loaded = false →
    (6939 ≤ snap.length → ∃ t, exec (.load snap) s = .next t ∧
      (∀ i, i < 6144 → ∃ b, snap[27 + i]? = some b ∧ Memory.read t.bm i = some b) ∧
      (∀ i, 6144 ≤ i → Memory.read t.bm i = none) ∧
      (∀ j, j < 768 → ∃ b, snap[6171 + j]? = some b ∧ Memory.read t.am j = some b) ∧
      (∀ j, 768 ≤ j → Memory.read t.am j = none) ∧
      t.loaded = true ∧ t.done = s.done ∧ t.fault = .none ∧
      (∀ p, Memory.read t.raster p = Memory.read s.raster p) ∧ t.raster = s.raster ∧ t.pending = s.pending) ∧
    (snap.length < 6939 →
      exec (.load snap) s = .next { s with fault := .formatError snap.length, result := .none })

/-- LOAD's one check is the length, and it is strict: fewer than 6939 bytes raise FormatError(n) with nothing copied, 6939
or more load, whatever the bytes are (40_loader.md R71). -/
def Obligations.LoadChecksOnlyTheLength : Prop :=
  ∀ (snap : List Byte) (s : State), s.fault = .none → s.loaded = false →
    ∃ t, exec (.load snap) s = .next t ∧
      (t.fault = if snap.length < 6939 then .formatError snap.length else .none) ∧
      (t.loaded = true ↔ 6939 ≤ snap.length) ∧
      (snap.length < 6939 → t.bm = s.bm ∧ t.am = s.am)

/-- LOAD while LOADED = 1 has no step (40_loader.md R70). -/
def Obligations.SecondLoadIsRefused : Prop :=
  ∀ (snap : List Byte) (s : State), s.fault = .none → s.loaded = true →
    exec (.load snap) s = .refused .alreadyLoaded

/-- LOAD's copy is its loop of single byte writes into empty memories (40_loader.md R72). -/
def Obligations.LoadEqualsItsByteWrites : Prop :=
  ∀ (snap : List Byte) (s : State), s.fault = .none → s.loaded = false → 6939 ≤ snap.length →
    exec (.load snap) s = .next { s with
      bm := writeBytesFrom 0 ((snap.drop 27).take 6144) []
      am := writeBytesFrom 0 ((snap.drop 6171).take 768) []
      loaded := true
      result := .none }

/-- LOAD and RENDER do not read the header or the tail: two snapshots of 6939 bytes or more that agree on offsets 27 to
6938 give the same outcome (40_loader.md R74). -/
def Obligations.HeaderAndTailAreNotRead : Prop :=
  ∀ (snap snap' : List Byte) (s : State), 6939 ≤ snap.length → 6939 ≤ snap'.length →
    (∀ k, 27 ≤ k → k ≤ 6938 → snap[k]? = snap'[k]?) →
    exec (.load snap) s = exec (.load snap') s ∧ exec (.render snap) s = exec (.render snap') s

/-! ### The address translator -/

/-- XLATE gives back the offset, needs no LOAD and writes no state (41_address_translator.md R80 to R84). -/
def Obligations.XlateGivesOffset : Prop :=
  ∀ (x y : Nat) (s : State), s.fault = .none → x < 256 → y < 192 →
    exec (.xlate x y) s = .next { s with
      result := .bmAddr (BitVec.ofNat 13 ((y / 64 * 64 + y % 64 % 8 * 8 + y % 64 / 8) * 32 + x / 8)) } ∧
    (y / 64 * 64 + y % 64 % 8 * 8 + y % 64 / 8) * 32 + x / 8 ≤ 6143

/-- The row map is a bijection over [0,192), and every byte of BM is addressed by exactly the eight coordinates of one
scanline segment (41_address_translator.md R86). -/
def Obligations.RowMapIsBijection : Prop :=
  (∀ y, y < 192 → y / 64 * 64 + y % 64 % 8 * 8 + y % 64 / 8 = memRow y) ∧
  (∀ y, y < 192 → memRow y < 192) ∧
  (∀ r, r < 192 → ∃ y, y < 192 ∧ memRow y = r ∧ ∀ y', y' < 192 → memRow y' = r → y' = y) ∧
  (∀ off, off < 6144 → ∃ c y, c < 32 ∧ y < 192 ∧
    ∀ x' y', x' < 256 → y' < 192 → (bmOffset x' y' = off ↔ y' = y ∧ ∃ k, k < 8 ∧ x' = 8 * c + k))

/-- Further properties of the row map (41_address_translator.md R87): its own inverse, block-preserving, fixed exactly at
y = 64b + 9k, one scanline down adds 8, one character row down adds 1. -/
def Obligations.RowMapProperties : Prop :=
  ∀ y, y < 192 →
    memRow (memRow y) = y ∧
    memRow y / 64 = y / 64 ∧
    (memRow y = y ↔ ∃ b k, b < 3 ∧ k < 8 ∧ y = 64 * b + 9 * k) ∧
    (y % 8 < 7 → memRow (y + 1) = memRow y + 8) ∧
    (y % 64 < 56 → memRow (y + 8) = memRow y + 1)

/-- BMREAD raises NotLoaded first, then CoordinateRange; otherwise it gives back the byte of BM at XLATE's offset, the same
for the eight coordinates of a scanline segment, and writes no state (41_address_translator.md R90). -/
def Obligations.BmreadGivesByte : Prop :=
  ∀ (x y : Nat) (s : State), s.fault = .none →
    (s.loaded = false → exec (.bmread x y) s = .next { s with fault := .notLoaded, result := .none }) ∧
    (s.loaded = true → (256 ≤ x ∨ 192 ≤ y) →
      exec (.bmread x y) s = .next { s with fault := .coordinateRange x y, result := .none }) ∧
    (s.Inv → s.loaded = true → x < 256 → y < 192 →
      ∃ byte, Memory.read s.bm ((y / 64 * 64 + y % 64 % 8 * 8 + y % 64 / 8) * 32 + x / 8) = some byte ∧
        exec (.bmread x y) s = .next { s with result := .bmData byte } ∧
        ∀ k, k < 8 → exec (.bmread (8 * (x / 8) + k) y) s = .next { s with result := .bmData byte })

/-! ### The palette look-up -/

/-- ATTRDEC gives back the three fields (42_color_palette.md R100). -/
def Obligations.AttrdecGivesFields : Prop :=
  ∀ (a : Byte) (s : State), s.fault = .none →
    exec (.attrdec a) s = .next { s with
      result := .attrFields (decide (a.toNat / 64 % 2 = 1)) (BitVec.ofNat 3 (a.toNat / 8 % 8)) (BitVec.ofNat 3 (a.toNat % 8)) }

/-- PALLUT gives back the entry of PALETTE, which keeps the three entries the source fixes (42_color_palette.md R101,
10_state.md R13). -/
def Obligations.PallutGivesPaletteEntry : Prop :=
  (∀ (index : ColourIndex) (bright : Bool) (s : State), s.fault = .none →
    exec (.pallut index bright) s = .next { s with result := .rgb (palette index bright) }) ∧
  AdmissiblePalette palette

/-- CRESOLVE gives back the pair, both colours from the variant of bit 6, loaded or not (42_color_palette.md R102, R103,
R105). -/
def Obligations.CresolveGivesPair : Prop :=
  ∀ (a : Byte) (s : State), s.fault = .none →
    exec (.cresolve a) s = .next { s with
      result := .colours (palette (BitVec.ofNat 3 (a.toNat / 8 % 8)) (decide (a.toNat / 64 % 2 = 1)))
        (palette (BitVec.ofNat 3 (a.toNat % 8)) (decide (a.toNat / 64 % 2 = 1))) }

/-- Bit 7 of the attribute byte has no effect, under every palette (42_color_palette.md R104). -/
def Obligations.AttributeBitSevenIsIgnored : Prop :=
  ∀ a : Byte, (∀ pal : Palette, resolve pal a = resolve pal (BitVec.ofNat 8 (a.toNat % 128))) ∧
    ∀ s : State, exec (.cresolve a) s = exec (.cresolve (BitVec.ofNat 8 (a.toNat % 128))) s

/-- The results of CRESOLVE that the source fixes, and the byte 0x50, which resolves to entries the source leaves open
(42_color_palette.md R107, 90_conflicts.md C1). -/
def Obligations.CresolveSourcedResults : Prop :=
  (∀ s : State, s.fault = .none →
    exec (.cresolve 0x00#8) s = .next { s with result := .colours ⟨0, 0, 0⟩ ⟨0, 0, 0⟩ } ∧
    exec (.cresolve 0xFF#8) s = .next { s with result := .colours ⟨255, 255, 255⟩ ⟨255, 255, 255⟩ } ∧
    exec (.cresolve 0x10#8) s = .next { s with result := .colours ⟨215, 0, 0⟩ ⟨0, 0, 0⟩ } ∧
    exec (.cresolve 0x50#8) s = .next { s with result := .colours (palette 2 true) (palette 0 true) } ∧
    exec (.attrdec 0x50#8) s = .next { s with result := .attrFields true 2 0 }) ∧
  resolve Config.defaultPalette 0x50#8 = (⟨255, 0, 0⟩, ⟨0, 0, 0⟩)

/-- The default value of the parameter PALETTE, entry by entry, keeps the three sourced entries (10_state.md R14). -/
def Obligations.DefaultPaletteTable : Prop :=
  AdmissiblePalette Config.defaultPalette ∧
  (List.range 8).map (fun i => Config.defaultPalette (BitVec.ofNat 3 i) false) =
    [⟨0, 0, 0⟩, ⟨0, 0, 215⟩, ⟨215, 0, 0⟩, ⟨215, 0, 215⟩, ⟨0, 215, 0⟩, ⟨0, 215, 215⟩, ⟨215, 215, 0⟩, ⟨215, 215, 215⟩] ∧
  (List.range 8).map (fun i => Config.defaultPalette (BitVec.ofNat 3 i) true) =
    [⟨0, 0, 0⟩, ⟨0, 0, 255⟩, ⟨255, 0, 0⟩, ⟨255, 0, 255⟩, ⟨0, 255, 0⟩, ⟨0, 255, 255⟩, ⟨255, 255, 0⟩, ⟨255, 255, 255⟩]

/-! ### The compositor -/

/-- CELL gives back the offset of the attribute byte, needs no LOAD, writes no state and is the same for the eight
scanlines of a character row; out of range it raises CoordinateRange (43_compositor.md R120). -/
def Obligations.CellGivesOffset : Prop :=
  ∀ (x y : Nat) (s : State), s.fault = .none →
    (x < 256 → y < 192 →
      exec (.cell x y) s = .next { s with result := .amAddr (BitVec.ofNat 10 (y / 8 * 32 + x / 8)) } ∧
      x / 8 < 32 ∧ y / 8 < 24 ∧ y / 8 * 32 + x / 8 < 768 ∧
      ∀ k, k < 8 → exec (.cell x (8 * (y / 8) + k)) s = exec (.cell x y) s) ∧
    ((256 ≤ x ∨ 192 ≤ y) →
      exec (.cell x y) s = .next { s with fault := .coordinateRange x y, result := .none })

/-- ATREAD raises NotLoaded first, then CoordinateRange; otherwise it gives back the byte of AM at CELL's offset, the same
for the sixty-four coordinates of a cell, and writes no state (43_compositor.md R121). -/
def Obligations.AtreadGivesAttribute : Prop :=
  ∀ (x y : Nat) (s : State), s.fault = .none →
    (s.loaded = false → exec (.atread x y) s = .next { s with fault := .notLoaded, result := .none }) ∧
    (s.loaded = true → (256 ≤ x ∨ 192 ≤ y) →
      exec (.atread x y) s = .next { s with fault := .coordinateRange x y, result := .none }) ∧
    (s.Inv → s.loaded = true → x < 256 → y < 192 →
      ∃ a, Memory.read s.am (y / 8 * 32 + x / 8) = some a ∧
        exec (.atread x y) s = .next { s with result := .amData a } ∧
        ∀ j k, j < 8 → k < 8 →
          exec (.atread (8 * (x / 8) + j) (8 * (y / 8) + k)) s = .next { s with result := .amData a })

/-- BITSEL gives back bit 7 - (x mod 8), for every byte and every x (43_compositor.md R122). -/
def Obligations.BitselGivesBit : Prop :=
  ∀ (byte : Byte) (x : Nat) (s : State), s.fault = .none →
    exec (.bitsel byte x) s = .next { s with result := .pixBit (decide (byte.toNat / 2 ^ (7 - x % 8) % 2 = 1)) }

/-- The eight coordinates of a scanline segment read one bitmap byte, the sixty-four of a cell one attribute byte, and a
cell colours eight BM bytes 256 apart (43_compositor.md R129). -/
def Obligations.CoordinatesShareBytes : Prop :=
  ∀ (x y x' y' : Nat) (s : State), x < 256 → y < 192 → x' < 256 → y' < 192 → x / 8 = x' / 8 →
    (y = y' → exec (.bmread x y) s = exec (.bmread x' y') s) ∧
    (y / 8 = y' / 8 → exec (.atread x y) s = exec (.atread x' y') s) ∧
    (y / 8 = y' / 8 → bmOffset x y = y' / 64 * 2048 + y' % 64 / 8 * 32 + x' / 8 + 256 * (y % 8))

/-- PIXEL raises NotLoaded first, then CoordinateRange; otherwise it writes ink or paper, by the bitmap bit, at y*256 + x,
and nothing else (43_compositor.md R123). -/
def Obligations.PixelWritesItsColour : Prop :=
  ∀ (x y : Nat) (s : State), s.fault = .none →
    (s.loaded = false → exec (.pixel x y) s = .next { s with fault := .notLoaded, result := .none }) ∧
    (s.loaded = true → (256 ≤ x ∨ 192 ≤ y) →
      exec (.pixel x y) s = .next { s with fault := .coordinateRange x y, result := .none }) ∧
    (s.Inv → s.loaded = true → x < 256 → y < 192 →
      ∃ a byte, Memory.read s.am (y / 8 * 32 + x / 8) = some a ∧
        Memory.read s.bm ((y / 64 * 64 + y % 64 % 8 * 8 + y % 64 / 8) * 32 + x / 8) = some byte ∧
        exec (.pixel x y) s = .next { s with
          raster := Memory.write s.raster (y * 256 + x)
            (palette (if byte.toNat / 2 ^ (7 - x % 8) % 2 = 1 then BitVec.ofNat 3 (a.toNat % 8) else BitVec.ofNat 3 (a.toNat / 8 % 8))
              (decide (a.toNat / 64 % 2 = 1)))
          result := .none })

/-- PIXEL's frame (43_compositor.md R124): every byte of BM and AM, every other pixel and every flag but FAULT are
unchanged, and a faulting PIXEL writes no pixel. -/
def Obligations.PixelFrame : Prop :=
  ∀ (x y : Nat) (s t : State), exec (.pixel x y) s = .next t →
    (∀ a, Memory.read t.bm a = Memory.read s.bm a) ∧ (∀ a, Memory.read t.am a = Memory.read s.am a) ∧
    (∀ p, p ≠ rasterIndex x y → Memory.read t.raster p = Memory.read s.raster p) ∧
    (t.fault ≠ .none → t.raster = s.raster) ∧
    t.loaded = s.loaded ∧ t.done = s.done ∧ t.pending = s.pending

/-- Repeating PIXEL with the same operands rewrites the same value (43_compositor.md R124). -/
def Obligations.PixelRepeats : Prop :=
  ∀ (x y : Nat) (s t : State), exec (.pixel x y) s = .next t → t.fault = .none → exec (.pixel x y) t = .next t

/-- Two pixel steps commute (20_memory.md R42, 70_reset_and_hazards.md R173). -/
def Obligations.PixelStepsCommute : Prop :=
  ∀ (v w : WorkItem) (s : State), s.Inv → s.fault = .none → s.loaded = true →
    v.x < 256 → v.y < 192 → w.x < 256 → w.y < 192 →
    ∃ t, runWork [v, w] s = .next t ∧ runWork [w, v] s = .next t

/-- FRAME completes: DONE is set, every pixel has the colour of its attribute and bitmap byte, and BM, AM, LOADED, FAULT
are unchanged (43_compositor.md R125, R127, R128). -/
def Obligations.FrameComposesEveryPixel : Prop :=
  ∀ s : State, s.Inv → s.fault = .none → s.loaded = true →
    ∃ t, exec .frame s = .next t ∧ t.done = true ∧ t.loaded = true ∧ t.fault = .none ∧ t.pending = s.pending ∧
      (∀ a, Memory.read t.bm a = Memory.read s.bm a) ∧ (∀ a, Memory.read t.am a = Memory.read s.am a) ∧
      (∀ p, 49152 ≤ p → Memory.read t.raster p = none) ∧
      ∀ x y, x < 256 → y < 192 →
        ∃ a byte, Memory.read s.am (y / 8 * 32 + x / 8) = some a ∧
          Memory.read s.bm ((y / 64 * 64 + y % 64 % 8 * 8 + y % 64 / 8) * 32 + x / 8) = some byte ∧
          Memory.read t.raster (y * 256 + x) =
            some (palette (if byte.toNat / 2 ^ (7 - x % 8) % 2 = 1 then BitVec.ofNat 3 (a.toNat % 8) else BitVec.ofNat 3 (a.toNat / 8 % 8))
              (decide (a.toNat / 64 % 2 = 1)))

/-- FRAME equals its 49152 pixel steps and the join, for every number of workers, every assignment and every
interleaving (20_memory.md R42, R44; 43_compositor.md R126). -/
def Obligations.FrameEqualsEverySchedule : Prop :=
  ∀ (s : State) (workers : Nat) (ws : List WorkItem), s.Inv → s.fault = .none → s.loaded = true →
    Schedule.valid workers ws → frameBySchedule ws s = exec .frame s

/-- FRAME again when DONE = 1 leaves RASTER unchanged and DONE = 1 (43_compositor.md R128). -/
def Obligations.FrameAgainChangesNothing : Prop :=
  ∀ s : State, s.Inv → s.fault = .none → s.loaded = true → s.done = true →
    exec .frame s = .next { s with result := .none }

/-- RENDER from the reset state is LOAD and then FRAME (43_compositor.md R130, 30_encoding.md R65). -/
def Obligations.RenderIsLoadThenFrame : Prop :=
  ∀ (snap : List Byte) (s t : State), s.fault = .none → s.loaded = false → s.done = false → 6939 ≤ snap.length →
    exec (.load snap) s = .next t → exec (.render snap) s = exec .frame t

/-- RENDER as a function of the snapshot (43_compositor.md R132): it completes, and every pixel has the colour of the
closed form. -/
def Obligations.RenderClosedForm : Prop :=
  ∀ (snap : List Byte) (s : State), s.fault = .none → s.loaded = false → s.done = false → 6939 ≤ snap.length →
    ∃ t, exec (.render snap) s = .next t ∧ t.Completed ∧ renderResult t = .ok t.raster ∧ t.raster.length = 49152 ∧
      t.pending = s.pending ∧
      ∀ x y, x < 256 → y < 192 →
        ∃ a byte, snap[6171 + (y / 8 * 32 + x / 8)]? = some a ∧
          snap[27 + ((y / 64 * 64 + y % 8 * 8 + y % 64 / 8) * 32 + x / 8)]? = some byte ∧
          Memory.read t.raster (y * 256 + x) =
            some (palette (if byte.toNat / 2 ^ (7 - x % 8) % 2 = 1 then BitVec.ofNat 3 (a.toNat % 8) else BitVec.ofNat 3 (a.toNat / 8 % 8))
              (decide (a.toNat / 64 % 2 = 1)))

/-- RENDER of a short snapshot raises FormatError and writes no pixel (43_compositor.md R131). -/
def Obligations.ShortRenderRaisesFormatError : Prop :=
  ∀ (snap : List Byte) (s : State), s.fault = .none → s.loaded = false → s.done = false → snap.length < 6939 →
    exec (.render snap) s = .next { s with fault := .formatError snap.length, result := .none } ∧
    renderResult { s with fault := .formatError snap.length, result := .none } = .error (.formatError snap.length)

/-! ### Faults -/

/-- The coordinate operations raise CoordinateRange(x, y) on every coordinate out of range, and write nothing but FAULT
(60_exceptions.md R152, 41_address_translator.md R85). -/
def Obligations.OutOfRangeRaisesCoordinateRange : Prop :=
  ∀ (x y : Nat) (s : State), s.fault = .none → (256 ≤ x ∨ 192 ≤ y) →
    exec (.xlate x y) s = .next { s with fault := .coordinateRange x y, result := .none } ∧
    exec (.cell x y) s = .next { s with fault := .coordinateRange x y, result := .none } ∧
    (s.loaded = true →
      exec (.bmread x y) s = .next { s with fault := .coordinateRange x y, result := .none } ∧
      exec (.atread x y) s = .next { s with fault := .coordinateRange x y, result := .none } ∧
      exec (.pixel x y) s = .next { s with fault := .coordinateRange x y, result := .none })

/-- BMREAD, ATREAD, PIXEL and FRAME raise NotLoaded while LOADED = 0, whatever the coordinate (60_exceptions.md R153 and
the priority of R157). -/
def Obligations.UnloadedRaisesNotLoaded : Prop :=
  ∀ (x y : Nat) (s : State), s.fault = .none → s.loaded = false →
    exec (.bmread x y) s = .next { s with fault := .notLoaded, result := .none } ∧
    exec (.atread x y) s = .next { s with fault := .notLoaded, result := .none } ∧
    exec (.pixel x y) s = .next { s with fault := .notLoaded, result := .none } ∧
    exec .frame s = .next { s with fault := .notLoaded, result := .none }

/-- A raise writes FAULT and nothing else, for every operation (60_exceptions.md R157). `result` is the model's own record
(log entry 2). -/
def Obligations.RaiseWritesOnlyFault : Prop :=
  ∀ (i : Instr) (s t : State), exec i s = .next t → t.fault ≠ .none →
    t = { s with fault := t.fault, result := .none }

/-- Each fault has its causes and no others, with its recorded value (60_exceptions.md R150, R154). -/
def Obligations.FaultsHaveTheirCauses : Prop :=
  ∀ (i : Instr) (s t : State), exec i s = .next t →
    (∀ n, t.fault = .formatError n → n < 6939 ∧ ∃ snap : List Byte, snap.length = n ∧ (i = .load snap ∨ i = .render snap)) ∧
    (∀ x y, t.fault = .coordinateRange x y → (256 ≤ x ∨ 192 ≤ y) ∧
      (i = .xlate x y ∨ i = .cell x y ∨ (s.loaded = true ∧ (i = .bmread x y ∨ i = .atread x y ∨ i = .pixel x y)))) ∧
    (t.fault = .notLoaded → s.loaded = false ∧
      ((∃ x y, i = .bmread x y ∨ i = .atread x y ∨ i = .pixel x y) ∨ i = .frame))

/-- FAULT is sticky: while it is not none, every operation is refused (60_exceptions.md R159). -/
def Obligations.FaultIsSticky : Prop :=
  ∀ (i : Instr) (s : State), s.fault ≠ .none → exec i s = .refused .faultPending

/-- An operation is refused exactly where the spec gives it no step (60_exceptions.md R162, 40_loader.md R70,
43_compositor.md R130). -/
def Obligations.RefusedExactlyWhenNotAdmitted : Prop :=
  ∀ (i : Instr) (s : State),
    (∃ r, exec i s = .refused r) ↔
      s.fault ≠ .none ∨ (s.loaded = true ∧ ∃ snap, i = .load snap) ∨
        ((s.loaded = true ∨ s.done = true) ∧ ∃ snap, i = .render snap)

/-- Under the invariant no operation stops the machine: there is no error beside the three faults (60_exceptions.md R154,
20_memory.md R47). A step stops only on the host's read of a pixel index outside RASTER (log entry 7). -/
def Obligations.NothingElseStopsTheMachine : Prop :=
  (∀ (i : Instr) (s : State) (f : Fault), s.Inv → exec i s ≠ .fault f) ∧
  ∀ (s : State) (f : Fault), s.Inv → step s = .fault f → ∃ p rest, s.pending = .readPixel p :: rest ∧ 49152 ≤ p

/-! ### State, flags and the host -/

/-- What reset leaves (10_state.md R23, 70_reset_and_hazards.md R170). The model's own two fields are empty (log entries
1 and 2). -/
def Obligations.ResetState : Prop :=
  State.reset.loaded = false ∧ State.reset.done = false ∧ State.reset.fault = .none ∧
  (∀ a, Memory.read State.reset.bm a = none) ∧ (∀ a, Memory.read State.reset.am a = none) ∧
  (∀ p, Memory.read State.reset.raster p = none) ∧ State.reset.result = .none ∧ State.reset.pending = []

/-- The state right after reset has the invariant. -/
def Obligations.ResetHasInvariant : Prop := State.reset.Inv

/-- Every step keeps the invariant: canonical memories, full once loaded, a full raster once done, and every listed pixel
of the colour its own coordinate gives it (10_state.md R24, 43_compositor.md R124). -/
def Obligations.StepKeepsInvariant : Prop :=
  ∀ s t : State, s.Inv → step s = .next t → t.Inv

/-- Who writes each item of the state (10_state.md R10, R11, R12, R15, R17): BM, AM and LOADED only LOAD, and only while
LOADED = 0; RASTER only PIXEL and FRAME; DONE only FRAME (RENDER being LOAD and FRAME). -/
def Obligations.WritersOfEachItem : Prop :=
  ∀ (i : Instr) (s t : State), exec i s = .next t →
    (t.bm ≠ s.bm ∨ t.am ≠ s.am ∨ t.loaded ≠ s.loaded → s.loaded = false ∧ t.loaded = true ∧ ∃ snap, i = .load snap ∨ i = .render snap) ∧
    (t.raster ≠ s.raster → (∃ x y, i = .pixel x y) ∨ i = .frame ∨ ∃ snap, i = .render snap) ∧
    (t.done ≠ s.done → t.done = true ∧ t.fault = .none ∧ (i = .frame ∨ ∃ snap, i = .render snap)) ∧
    t.pending = s.pending

/-- The frame of the operations that only read (20_memory.md R41): XLATE, BMREAD, ATTRDEC, PALLUT, CRESOLVE, CELL, ATREAD
and BITSEL leave every byte, every pixel and every flag but FAULT unchanged, and FAULT too unless they raise. -/
def Obligations.ReadingOperationsFrame : Prop :=
  ∀ (i : Instr) (s t : State), (∀ snap, i ≠ .load snap ∧ i ≠ .render snap) → (∀ x y, i ≠ .pixel x y) → i ≠ .frame →
    exec i s = .next t →
    (∀ a, Memory.read t.bm a = Memory.read s.bm a) ∧ (∀ a, Memory.read t.am a = Memory.read s.am a) ∧
    (∀ p, Memory.read t.raster p = Memory.read s.raster p) ∧
    t = { s with fault := t.fault, result := t.result } ∧ (t.fault ≠ .none → t.result = .none)

/-- BM and AM are immutable from a successful LOAD until reset: no step but the host's reset changes them (20_memory.md
R46, 10_state.md R11). -/
def Obligations.InputsImmutableUntilReset : Prop :=
  ∀ s t : State, s.loaded = true → s.pending.head? ≠ some .reset → step s = .next t →
    t.bm = s.bm ∧ t.am = s.am ∧ t.loaded = true

/-- DONE is never set while FAULT is not none: the step that sets it leaves no fault and, under the invariant, a raster in
which every pixel holds its colour (60_exceptions.md R159, 10_state.md R17). -/
def Obligations.DoneIsSetOnlyOnCompletion : Prop :=
  ∀ s t : State, s.Inv → s.done = false → step s = .next t → t.done = true →
    s.fault = .none ∧ t.Completed ∧
      ∀ p, p < 49152 → ∃ c, Memory.read t.raster p = some c ∧ pixelColourAt palette t p = .ok c

/-- A conversion started by RENDER reaches one of its two ends (70_reset_and_hazards.md R179). -/
def Obligations.RenderReachesAnEnd : Prop :=
  ∀ (snap : List Byte) (s : State), s.fault = .none → s.loaded = false → s.done = false →
    ∃ t, exec (.render snap) s = .next t ∧
      ((t.Completed ∧ ∀ p, p < 49152 → ∃ c, Memory.read t.raster p = some c) ∨
        (t.Faulted ∧ t.fault = .formatError snap.length ∧ t.loaded = false ∧ t.done = false ∧ t.raster = s.raster))

/-- Reset leads to the reset state from every state, the faulted ones too; the host's later moves still stand
(70_reset_and_hazards.md R170; log entry 1). -/
def Obligations.HostReset : Prop :=
  ∀ (s : State) (rest : List HostMove), s.pending = .reset :: rest →
    step s = .next { State.reset with pending := rest }

/-- Reading STATUS never fails and writes no state, in a faulted state too (60_exceptions.md R162). -/
def Obligations.StatusReadNeverFails : Prop :=
  ∀ (s : State) (rest : List HostMove), s.pending = .readStatus :: rest →
    step s = .next { s with pending := rest, result := .status s.loaded s.done s.fault }

/-- A read of RASTER is refused unless DONE = 1 and FAULT = none (60_exceptions.md R162, 70_reset_and_hazards.md R174). -/
def Obligations.EarlyRasterReadIsRefused : Prop :=
  ∀ (s : State) (m : HostMove) (rest : List HostMove), s.pending = m :: rest →
    (m = .readRaster ∨ ∃ p, m = .readPixel p) → ¬ (s.done = true ∧ s.fault = .none) →
    step s = .refused .rasterNotReadable

/-- A read of RASTER when DONE = 1 and FAULT = none gives the pixel, or the whole raster in order, as bytes
(60_exceptions.md R162, 20_memory.md R37). It holds for either value of HAS_ALPHA. -/
def Obligations.CompletedRasterIsDelivered : Prop :=
  ∀ (s : State) (rest : List HostMove), s.Inv → s.done = true → s.fault = .none →
    (∀ p, p < 49152 → s.pending = .readPixel p :: rest →
      ∃ c, Memory.read s.raster p = some c ∧
        step s = .next { s with pending := rest, result := .pixel (pixelBytes Config.hasAlpha c) }) ∧
    (s.pending = .readRaster :: rest →
      ∃ cs : List RGB, cs.length = 49152 ∧ (∀ p, p < 49152 → cs[p]? = Memory.read s.raster p) ∧
        step s = .next { s with pending := rest, result := .raster (rasterBytes Config.hasAlpha cs) })

/-- The pixel format (20_memory.md R37): the words {R, G, B} and {R, G, B, A} with A = 255, and the places of a pixel's
bytes in the raster's byte sequence. -/
def Obligations.PixelFormat : Prop :=
  (∀ c : RGB, (rgbWord c).extractLsb' 16 8 = c.red ∧ (rgbWord c).extractLsb' 8 8 = c.green ∧
    (rgbWord c).extractLsb' 0 8 = c.blue ∧
    (rgbaWord c).extractLsb' 8 24 = rgbWord c ∧ (rgbaWord c).extractLsb' 0 8 = 255#8) ∧
  ∀ (cs : List RGB) (p : Nat) (c : RGB), cs[p]? = some c →
    (rasterBytes false cs)[3 * p]? = some c.red ∧ (rasterBytes false cs)[3 * p + 1]? = some c.green ∧
    (rasterBytes false cs)[3 * p + 2]? = some c.blue ∧
    (rasterBytes true cs)[4 * p]? = some c.red ∧ (rasterBytes true cs)[4 * p + 1]? = some c.green ∧
    (rasterBytes true cs)[4 * p + 2]? = some c.blue ∧ (rasterBytes true cs)[4 * p + 3]? = some 255#8

/-- With no move pending nothing happens (the model's choice, log entry 11). -/
def Obligations.IdleStepChangesNothing : Prop :=
  ∀ s : State, s.pending = [] → step s = .next s

/-! ### The ports of one pixel -/

/-- PIXEL is ATREAD, CRESOLVE, BMREAD, BITSEL, select, write (30_encoding.md R65), and what the ports between the sub-blocks
carry while it runs (10_state.md R22) is what XLATE, BMREAD, CELL, ATREAD, CRESOLVE and BITSEL give back on their own, each
of which completes: the addresses whole, both bytes, the pair and the bit. RASTER_DATA carries the selected colour, 24 bits
wide, or 32 with A = 255 where the parameter HAS_ALPHA is true (20_memory.md R37), and its bytes are those the host reads;
PIXEL writes that colour at RASTER_ADDR. It holds for either value of HAS_ALPHA (log entry 5). -/
def Obligations.PixelPortsCarryItsParts : Prop :=
  ∀ (x y : Nat) (s : State), s.Inv → s.fault = .none → s.loaded = true → x < 256 → y < 192 →
    ∃ ports, composePixel palette s x y = .ok ports ∧
      ports.bmAddr.toNat = memRow y * 32 + memCol x ∧ exec (.xlate x y) s = .next { s with result := .bmAddr ports.bmAddr } ∧
      Memory.read s.bm ports.bmAddr.toNat = some ports.bmData ∧
      exec (.bmread x y) s = .next { s with result := .bmData ports.bmData } ∧
      ports.amAddr.toNat = cellY y * 32 + cellX x ∧ exec (.cell x y) s = .next { s with result := .amAddr ports.amAddr } ∧
      Memory.read s.am ports.amAddr.toNat = some ports.amData ∧
      exec (.atread x y) s = .next { s with result := .amData ports.amData } ∧
      exec (.cresolve ports.amData) s = .next { s with result := .colours ports.paperRgb ports.inkRgb } ∧
      exec (.bitsel ports.bmData x) s = .next { s with result := .pixBit ports.pixBit } ∧
      ports.rasterAddr.toNat = y * 256 + x ∧
      ports.rasterData.colour = (if ports.pixBit then ports.inkRgb else ports.paperRgb) ∧
      rasterDataWord ports.rasterData =
        (if Config.hasAlpha then ⟨32, rgbWord ports.rasterData.colour ++ 255#8⟩ else ⟨24, rgbWord ports.rasterData.colour⟩) ∧
      rasterDataBytes ports.rasterData = pixelBytes Config.hasAlpha ports.rasterData.colour ∧
      exec (.pixel x y) s = .next { s with
        raster := Memory.write s.raster ports.rasterAddr.toNat ports.rasterData.colour
        result := .none }
end

