-- ==== Sys2Proof/Laws/Memory.lean ====
section
/-! SUPPORT. The memory operations: what a read gives after each, and that each keeps the canonical form. -/

namespace Sys2Proof.Machine

variable {α : Type}

@[simp] theorem Memory.read_nil (a : Nat) : Memory.read ([] : List (Nat × α)) a = none := rfl

theorem Memory.read_write (m : List (Nat × α)) (a b : Nat) (v : α) :
    Memory.read (Memory.write m a v) b = if a = b then some v else Memory.read m b := by
  induction m with
  | nil => simp [Memory.write, Memory.read]
  | cons c m ih =>
    obtain ⟨d, w⟩ := c
    simp only [Memory.write]
    by_cases h1 : a < d
    · simp [h1, Memory.read]
    · by_cases h2 : a = d
      · subst h2; by_cases h3 : a = b <;> simp [h3, Memory.read]
      · simp only [h1, h2, if_false, Memory.read, ih]
        by_cases h3 : a = b
        · subst h3; simp [Ne.symm h2]
        · simp [h3]

@[simp] theorem Memory.read_write_same (m : List (Nat × α)) (a : Nat) (v : α) :
    Memory.read (Memory.write m a v) a = some v := by simp [Memory.read_write]

theorem Memory.read_write_other (m : List (Nat × α)) {a b : Nat} (v : α) (h : a ≠ b) :
    Memory.read (Memory.write m a v) b = Memory.read m b := by simp [Memory.read_write, h]

theorem Memory.risingBelow_cons {size lo a : Nat} {v : α} {m : List (Nat × α)} :
    Memory.risingBelow size lo ((a, v) :: m) = true ↔ lo ≤ a ∧ a < size ∧ Memory.risingBelow size (a + 1) m = true := by
  simp [Memory.risingBelow, and_assoc]

theorem Memory.risingBelow_write {size : Nat} {m : List (Nat × α)} {lo a : Nat} (v : α)
    (hm : Memory.risingBelow size lo m = true) (hlo : lo ≤ a) (ha : a < size) :
    Memory.risingBelow size lo (Memory.write m a v) = true := by
  induction m generalizing lo with
  | nil => simp [Memory.write, Memory.risingBelow, hlo, ha]
  | cons c m ih =>
    obtain ⟨d, w⟩ := c
    obtain ⟨h1, h2, h3⟩ := Memory.risingBelow_cons.mp hm
    simp only [Memory.write]
    by_cases had : a < d
    · simp only [had, if_true, Memory.risingBelow_cons]; exact ⟨hlo, ha, had, h2, h3⟩
    · by_cases had' : a = d
      · subst had'; simp only [had, if_false, if_true, Memory.risingBelow_cons]; exact ⟨hlo, ha, h3⟩
      · simp only [had, had', if_false, Memory.risingBelow_cons]
        exact ⟨h1, h2, ih h3 (by omega)⟩

theorem Memory.wf_write {size : Nat} {m : List (Nat × α)} {a : Nat} (v : α) (hm : Memory.wf size m = true)
    (ha : a < size) : Memory.wf size (Memory.write m a v) = true :=
  Memory.risingBelow_write v hm (Nat.zero_le a) ha

@[simp] theorem Memory.wf_nil (size : Nat) : Memory.wf size ([] : List (Nat × α)) = true := rfl

theorem Memory.read_bounds {size : Nat} {m : List (Nat × α)} {lo a : Nat} {v : α}
    (hm : Memory.risingBelow size lo m = true) (h : Memory.read m a = some v) : lo ≤ a ∧ a < size := by
  induction m generalizing lo with
  | nil => simp at h
  | cons c m ih =>
    obtain ⟨d, w⟩ := c
    obtain ⟨h1, h2, h3⟩ := Memory.risingBelow_cons.mp hm
    by_cases hd : d = a
    · subst hd; exact ⟨h1, h2⟩
    · simp only [Memory.read, hd, if_false] at h
      have := ih h3 h; omega

theorem Memory.read_lt {size : Nat} {m : List (Nat × α)} {a : Nat} {v : α} (hm : Memory.wf size m = true)
    (h : Memory.read m a = some v) : a < size := (Memory.read_bounds hm h).2

theorem Memory.read_below {size lo a : Nat} {m : List (Nat × α)} (hm : Memory.risingBelow size lo m = true)
    (ha : a < lo) : Memory.read m a = none := by
  cases h : Memory.read m a with
  | none => rfl
  | some v => have := (Memory.read_bounds hm h).1; omega

theorem Memory.rising_ext {size : Nat} {m₁ m₂ : List (Nat × α)} {lo : Nat}
    (h₁ : Memory.risingBelow size lo m₁ = true) (h₂ : Memory.risingBelow size lo m₂ = true)
    (h : ∀ a, Memory.read m₁ a = Memory.read m₂ a) : m₁ = m₂ := by
  induction m₁ generalizing m₂ lo with
  | nil =>
    cases m₂ with
    | nil => rfl
    | cons c m₂ => obtain ⟨d, w⟩ := c; simpa [Memory.read] using h d
  | cons c m₁ ih =>
    obtain ⟨a, v⟩ := c
    cases m₂ with
    | nil => simpa [Memory.read] using h a
    | cons c₂ m₂ =>
      obtain ⟨b, w⟩ := c₂
      obtain ⟨-, -, h₁'⟩ := Memory.risingBelow_cons.mp h₁
      obtain ⟨-, -, h₂'⟩ := Memory.risingBelow_cons.mp h₂
      have hab : a = b := by
        rcases Nat.lt_trichotomy a b with hlt | heq | hgt
        · have := h a
          simp only [Memory.read, if_true, Nat.ne_of_gt hlt, if_false,
            Memory.read_below h₂' (show a < b + 1 by omega)] at this
          cases this
        · exact heq
        · have := h b
          simp only [Memory.read, if_true, Nat.ne_of_gt hgt, if_false,
            Memory.read_below h₁' (show b < a + 1 by omega)] at this
          cases this
      subst hab
      have hv : v = w := by simpa [Memory.read] using h a
      subst hv
      congr 1
      refine ih h₁' h₂' fun x => ?_
      by_cases hx : a = x
      · subst hx
        rw [Memory.read_below h₁' (Nat.lt_succ_self a), Memory.read_below h₂' (Nat.lt_succ_self a)]
      · simpa [Memory.read, hx] using h x

/-- Two spaces in canonical form that read alike at every address are equal data. -/
theorem Memory.wf_ext {size : Nat} {m₁ m₂ : List (Nat × α)} (h₁ : Memory.wf size m₁ = true)
    (h₂ : Memory.wf size m₂ = true) (h : ∀ a, Memory.read m₁ a = Memory.read m₂ a) : m₁ = m₂ :=
  Memory.rising_ext h₁ h₂ h

theorem Memory.risingBelow_cellsFrom {size a lo : Nat} (vs : List α) (hlo : lo ≤ a) (h : a + vs.length ≤ size) :
    Memory.risingBelow size lo (Memory.cellsFrom a vs) = true := by
  induction vs generalizing a lo with
  | nil => rfl
  | cons v vs ih =>
    rw [List.length_cons] at h
    exact Memory.risingBelow_cons.mpr ⟨hlo, by omega, ih (Nat.le_refl _) (by omega)⟩

theorem Memory.wf_ofList {size : Nat} (vs : List α) (h : vs.length ≤ size) : Memory.wf size (Memory.ofList vs) = true :=
  Memory.risingBelow_cellsFrom vs (Nat.le_refl 0) (by omega)

theorem Memory.read_cellsFrom (vs : List α) (a b : Nat) :
    Memory.read (Memory.cellsFrom a vs) b = if a ≤ b then vs[b - a]? else none := by
  induction vs generalizing a with
  | nil => simp [Memory.cellsFrom]
  | cons v vs ih =>
    simp only [Memory.cellsFrom, Memory.read, ih]
    by_cases h1 : a = b
    · subst h1; simp
    · by_cases h2 : a ≤ b
      · rw [show b - a = (b - (a + 1)) + 1 by omega]; simp [h1, h2, show a + 1 ≤ b by omega]
      · simp [h1, h2, show ¬ a + 1 ≤ b by omega]

@[simp] theorem Memory.read_ofList (vs : List α) (a : Nat) : Memory.read (Memory.ofList vs) a = vs[a]? := by
  simp [Memory.ofList, Memory.read_cellsFrom]

theorem Memory.length_cellsFrom (vs : List α) (a : Nat) : (Memory.cellsFrom a vs).length = vs.length := by
  induction vs generalizing a with
  | nil => rfl
  | cons v vs ih => simp [Memory.cellsFrom, ih]

@[simp] theorem Memory.length_ofList (vs : List α) : (Memory.ofList vs).length = vs.length :=
  Memory.length_cellsFrom vs 0

theorem readSpace_ok {space : Space} {size : Nat} {m : List (Nat × α)} {a : Nat} {v : α} (ha : a < size)
    (h : Memory.read m a = some v) : readSpace space size m a = .ok v := by simp [readSpace, ha, h]

theorem readSpace_eq_ok {space : Space} {size : Nat} {m : List (Nat × α)} {a : Nat} {v : α} :
    readSpace space size m a = .ok v ↔ a < size ∧ Memory.read m a = some v := by
  unfold readSpace
  by_cases ha : a < size
  · cases h : Memory.read m a <;> simp [ha]
  · simp [ha]

/-- `collect` succeeds exactly when `f` does everywhere, and gives the values in order. -/
theorem collect_eq_ok {f : Nat → Except Fault α} {ns : List Nat} {g : Nat → α} (h : ∀ n ∈ ns, f n = .ok (g n)) :
    collect f ns = .ok (ns.map g) := by
  induction ns with
  | nil => rfl
  | cons n ns ih =>
    have h1 := h n (by simp)
    have h2 := ih fun k hk => h k (by simp [hk])
    simp [collect, h1, h2]

theorem collect_ok_inv {f : Nat → Except Fault α} {ns : List Nat} {vs : List α} (h : collect f ns = .ok vs) :
    vs.length = ns.length ∧ ∀ k n : Nat, ns[k]? = some n → ∃ v, vs[k]? = some v ∧ f n = .ok v := by
  induction ns generalizing vs with
  | nil => simp only [collect, Except.ok.injEq] at h; subst h; simp
  | cons n ns ih =>
    simp only [collect] at h
    cases h1 : f n with
    | error e => simp [h1] at h
    | ok v =>
      cases h2 : collect f ns with
      | error e => simp [h1, h2] at h
      | ok ws =>
        simp only [h1, h2, Except.ok.injEq] at h
        subst h
        obtain ⟨hl, hk⟩ := ih h2
        refine ⟨by simp [hl], fun k m hm => ?_⟩
        cases k with
        | zero => simp only [List.getElem?_cons_zero, Option.some.injEq] at hm ⊢; subst hm; exact ⟨v, rfl, h1⟩
        | succ k => simpa using hk k m (by simpa using hm)

/-- The loop of single byte writes leaves the cells one after another. -/
theorem read_writeBytesFrom (bs : List Byte) (a b : Nat) (m : List Host.Cell) :
    Memory.read (writeBytesFrom a bs m) b = if a ≤ b ∧ b < a + bs.length then bs[b - a]? else Memory.read m b := by
  induction bs generalizing a m with
  | nil =>
    simp only [writeBytesFrom, List.length_nil, Nat.add_zero]
    rw [if_neg (by omega)]
  | cons c bs ih =>
    simp only [writeBytesFrom, ih, Memory.read_write, List.length_cons]
    by_cases h1 : a = b
    · subst h1; simp
    · by_cases h2 : a + 1 ≤ b ∧ b < a + 1 + bs.length
      · rw [if_pos h2, if_pos (by omega), show b - a = (b - (a + 1)) + 1 by omega]; simp
      · rw [if_neg h2, if_neg h1, if_neg (by omega)]

theorem wf_writeBytesFrom {size : Nat} (bs : List Byte) (a : Nat) (m : List Host.Cell)
    (hm : Memory.wf size m = true) (h : a + bs.length ≤ size) : Memory.wf size (writeBytesFrom a bs m) = true := by
  induction bs generalizing a m with
  | nil => exact hm
  | cons c bs ih =>
    rw [List.length_cons] at h
    exact ih (a + 1) _ (Memory.wf_write c hm (by omega)) (by omega)

/-- The memories of the reset state are in canonical form. -/
theorem reset_memories_wf :
    Memory.wf Config.bmSize State.reset.bm = true ∧ Memory.wf Config.amSize State.reset.am = true ∧
      Memory.wf Config.numPixels State.reset.raster = true := ⟨rfl, rfl, rfl⟩

end Sys2Proof.Machine
end

