-- ==== Sys2Proof/Laws/Operands.lean ====
section
/-! SUPPORT. The operand forms: bounds, inverses, and that no port truncates a legal value. -/

namespace Sys2Proof.Machine

theorem memRow_eq (y : Nat) : memRow y = y / 64 * 64 + y % 64 % 8 * 8 + y % 64 / 8 := by
  simp [memRow, block, charRow, charIndex, blockOffset]

theorem bmOffset_eq (x y : Nat) : bmOffset x y = (y / 64 * 64 + y % 64 % 8 * 8 + y % 64 / 8) * 32 + x / 8 := by
  simp [bmOffset, gridOffset, memRow_eq, memCol]

theorem amOffset_eq (x y : Nat) : amOffset x y = y / 8 * 32 + x / 8 := by
  simp [amOffset, gridOffset, cellY, cellX]

theorem rasterIndex_eq (x y : Nat) : rasterIndex x y = y * 256 + x := by simp [rasterIndex]

/-- The row map on the fields of y: it exchanges charRow and charIndex (41_address_translator.md R82). -/
theorem memRow_fields {b c r : Nat} (hc : c < 8) (hr : r < 8) : memRow (64 * b + 8 * c + r) = 64 * b + 8 * r + c := by
  rw [memRow_eq]; omega

/-- Every row is block*64 + charIndex*8 + charRow (41_address_translator.md R81). -/
theorem row_fields (y : Nat) : ∃ b c r, y = 64 * b + 8 * c + r ∧ c < 8 ∧ r < 8 :=
  ⟨y / 64, y % 64 / 8, y % 8, by omega, by omega, by omega⟩

theorem memRow_lt {y : Nat} (hy : y < 192) : memRow y < 192 := by rw [memRow_eq]; omega

theorem bmOffset_lt {x y : Nat} (hx : x < 256) (hy : y < 192) : bmOffset x y < 6144 := by
  have := memRow_lt hy
  simp only [bmOffset, gridOffset, memCol, Config.cols, Config.cell]; omega

theorem amOffset_lt {x y : Nat} (hx : x < 256) (hy : y < 192) : amOffset x y < 768 := by
  rw [amOffset_eq]; omega

theorem rasterIndex_lt {x y : Nat} (hx : x < 256) (hy : y < 192) : rasterIndex x y < 49152 := by
  rw [rasterIndex_eq]; omega

theorem bmAddrPort_toNat {x y : Nat} (hx : x < 256) (hy : y < 192) : (bmAddrPort x y).toNat = bmOffset x y := by
  have := bmOffset_lt hx hy
  simp only [bmAddrPort, BitVec.toNat_ofNat]; omega

theorem amAddrPort_toNat {x y : Nat} (hx : x < 256) (hy : y < 192) : (amAddrPort x y).toNat = amOffset x y := by
  have := amOffset_lt hx hy
  simp only [amAddrPort, BitVec.toNat_ofNat]; omega

theorem rasterAddrPort_toNat {x y : Nat} (hx : x < 256) (hy : y < 192) :
    (rasterAddrPort x y).toNat = rasterIndex x y := by
  have := rasterIndex_lt hx hy
  simp only [rasterAddrPort, BitVec.toNat_ofNat]; omega

theorem rasterX_rasterIndex {x y : Nat} (hx : x < 256) : rasterX (rasterIndex x y) = x := by
  simp only [rasterX, rasterIndex, Config.width]; omega

theorem rasterY_rasterIndex {x y : Nat} (hx : x < 256) : rasterY (rasterIndex x y) = y := by
  simp only [rasterY, rasterIndex, Config.width]; omega

theorem rasterX_lt (p : Nat) : rasterX p < 256 := Nat.mod_lt p (by decide)

theorem rasterY_lt {p : Nat} (hp : p < 49152) : rasterY p < 192 := by
  simp only [rasterY, Config.width]; omega

theorem rasterIndex_coords (p : Nat) : rasterIndex (rasterX p) (rasterY p) = p := by
  simp only [rasterIndex, rasterX, rasterY, Config.width]; omega

theorem palette_black : palette 0 false = ⟨0, 0, 0⟩ := by simp [palette]
theorem palette_red : palette 2 false = ⟨215, 0, 0⟩ := by simp [palette]
theorem palette_brightWhite : palette 7 true = ⟨255, 255, 255⟩ := by simp [palette]

@[simp] theorem rasterDataPort_colour (alpha : Bool) (c : RGB) : (rasterDataPort alpha c).colour = c := rfl

@[simp] theorem rasterDataWord_port (alpha : Bool) (c : RGB) :
    rasterDataWord (rasterDataPort alpha c) = if alpha then ⟨32, rgbaWord c⟩ else ⟨24, rgbWord c⟩ := by
  cases alpha <;> rfl

@[simp] theorem pixelBytes_false (c : RGB) : pixelBytes false c = [c.red, c.green, c.blue] := rfl
@[simp] theorem pixelBytes_true (c : RGB) : pixelBytes true c = [c.red, c.green, c.blue, 255] := rfl

theorem bitOf_eq (byte : Byte) (x : Nat) : bitOf byte x = decide (byte.toNat / 2 ^ (7 - x % 8) % 2 = 1) := by
  simp [bitOf, BitVec.getLsbD, Nat.testBit_eq_decide_div_mod_eq]

end Sys2Proof.Machine
end

