-- ==== Sys2Proof/Laws/Ops.lean ====
section
/-! SUPPORT. What each gate and shared operation answers: one lemma per case, and one that says all of them. -/

namespace Sys2Proof.Machine

theorem whenAdmitted_of_none {s : State} {k : Outcome} (h : s.fault = .none) : whenAdmitted s k = k := by
  simp [whenAdmitted, h]

theorem whenAdmitted_of_fault {s : State} {k : Outcome} (h : s.fault ≠ .none) :
    whenAdmitted s k = .refused .faultPending := by simp [whenAdmitted, h]

theorem whenLoaded_of_true {s : State} {k : Outcome} (h : s.loaded = true) : whenLoaded s k = k := by
  simp [whenLoaded, h]

theorem whenLoaded_of_false {s : State} {k : Outcome} (h : s.loaded = false) :
    whenLoaded s k = raise .notLoaded s := by simp [whenLoaded, h]

theorem whenNotLoaded_of_false {s : State} {k : Outcome} (h : s.loaded = false) : whenNotLoaded s k = k := by
  simp [whenNotLoaded, h]

theorem whenFresh_of_fresh {s : State} {k : Outcome} (h : s.loaded = false) (hd : s.done = false) :
    whenFresh s k = k := by simp [whenFresh, h, hd]

theorem whenInRange_of_lt {x y : Nat} {s : State} {k : Outcome} (hx : x < 256) (hy : y < 192) :
    whenInRange x y s k = k := by simp [whenInRange, hx, hy]

theorem whenInRange_of_not {x y : Nat} {s : State} {k : Outcome} (h : ¬ (x < 256 ∧ y < 192)) :
    whenInRange x y s k = raise (.coordinateRange x y) s := by
  exact if_neg h

theorem whenReadable_of {s : State} {k : Outcome} (hd : s.done = true) (hf : s.fault = .none) :
    whenReadable s k = k := by simp [whenReadable, hd, hf]

theorem whenAdmitted_next {s t : State} {k : Outcome} (h : whenAdmitted s k = .next t) :
    s.fault = .none ∧ k = .next t := by
  by_cases hf : s.fault = .none
  · rw [whenAdmitted_of_none hf] at h; exact ⟨hf, h⟩
  · rw [whenAdmitted_of_fault hf] at h; cases h

theorem whenLoaded_next {s t : State} {k : Outcome} (h : whenLoaded s k = .next t) :
    (s.loaded = true ∧ k = .next t) ∨ (s.loaded = false ∧ t = { s with fault := .notLoaded, result := .none }) := by
  by_cases hl : s.loaded = true
  · rw [whenLoaded_of_true hl] at h; exact .inl ⟨hl, h⟩
  · rw [Bool.not_eq_true] at hl
    rw [whenLoaded_of_false hl] at h; cases h; exact .inr ⟨hl, rfl⟩

theorem whenInRange_next {x y : Nat} {s t : State} {k : Outcome} (h : whenInRange x y s k = .next t) :
    ((x < 256 ∧ y < 192) ∧ k = .next t) ∨
      (¬ (x < 256 ∧ y < 192) ∧ t = { s with fault := .coordinateRange x y, result := .none }) := by
  by_cases hr : x < 256 ∧ y < 192
  · rw [whenInRange_of_lt hr.1 hr.2] at h; exact .inl ⟨hr, h⟩
  · rw [whenInRange_of_not hr] at h; cases h; exact .inr ⟨hr, rfl⟩

theorem deliver_next {α : Type} {r : Except Fault α} {k : α → Outcome} {t : State} (h : deliver r k = .next t) :
    ∃ v, r = .ok v ∧ k v = .next t := by
  cases r with
  | error f => cases h
  | ok v => exact ⟨v, rfl, h⟩

theorem give_next {r : Result} {s t : State} (h : give r s = .next t) : t = { s with result := r } := by
  cases h; rfl

theorem composePixel_eq_ok {pal : Palette} {s : State} {x y : Nat} {ports : PixelPorts} :
    composePixel pal s x y = .ok ports ↔
      ∃ a byte, readAm s (amAddrPort x y).toNat = .ok a ∧ readBm s (bmAddrPort x y).toNat = .ok byte ∧
        ports = pixelPorts pal x y a byte := by
  unfold composePixel
  cases readAm s (amAddrPort x y).toNat with
  | error f => simp
  | ok a =>
    cases readBm s (bmAddrPort x y).toNat with
    | error f => simp
    | ok byte => simp [eq_comm]

/-- The colours of a frame depend on BM and AM alone. -/
theorem pixelColourAt_congr {pal : Palette} {s t : State} (hb : t.bm = s.bm) (ha : t.am = s.am) (p : Nat) :
    pixelColourAt pal t p = pixelColourAt pal s p := by
  simp [pixelColourAt, composePixel, readAm, readBm, hb, ha]

end Sys2Proof.Machine
end

