-- ==== Sys2Proof/Laws/State.lean ====
section
/-! SUPPORT. The fields of a state after each named update. -/

namespace Sys2Proof.Machine

@[simp] theorem writeRaster_bm (s : State) (p : Nat) (c : RGB) : (writeRaster s p c).bm = s.bm := rfl
@[simp] theorem writeRaster_am (s : State) (p : Nat) (c : RGB) : (writeRaster s p c).am = s.am := rfl
@[simp] theorem writeRaster_raster (s : State) (p : Nat) (c : RGB) :
    (writeRaster s p c).raster = Memory.write s.raster p c := rfl
@[simp] theorem writeRaster_loaded (s : State) (p : Nat) (c : RGB) : (writeRaster s p c).loaded = s.loaded := rfl
@[simp] theorem writeRaster_done (s : State) (p : Nat) (c : RGB) : (writeRaster s p c).done = s.done := rfl
@[simp] theorem writeRaster_fault (s : State) (p : Nat) (c : RGB) : (writeRaster s p c).fault = s.fault := rfl
@[simp] theorem writeRaster_result (s : State) (p : Nat) (c : RGB) : (writeRaster s p c).result = s.result := rfl
@[simp] theorem writeRaster_pending (s : State) (p : Nat) (c : RGB) : (writeRaster s p c).pending = s.pending := rfl

@[simp] theorem withMove_bm (s : State) (m : HostMove) : (s.withMove m).bm = s.bm := rfl
@[simp] theorem withMove_am (s : State) (m : HostMove) : (s.withMove m).am = s.am := rfl
@[simp] theorem withMove_raster (s : State) (m : HostMove) : (s.withMove m).raster = s.raster := rfl
@[simp] theorem withMove_loaded (s : State) (m : HostMove) : (s.withMove m).loaded = s.loaded := rfl
@[simp] theorem withMove_done (s : State) (m : HostMove) : (s.withMove m).done = s.done := rfl
@[simp] theorem withMove_fault (s : State) (m : HostMove) : (s.withMove m).fault = s.fault := rfl
@[simp] theorem withMove_result (s : State) (m : HostMove) : (s.withMove m).result = s.result := rfl
@[simp] theorem withMove_pending (s : State) (m : HostMove) : (s.withMove m).pending = m :: s.pending := rfl

@[simp] theorem reset_bm : State.reset.bm = [] := rfl
@[simp] theorem reset_am : State.reset.am = [] := rfl
@[simp] theorem reset_raster : State.reset.raster = [] := rfl
@[simp] theorem reset_loaded : State.reset.loaded = false := rfl
@[simp] theorem reset_done : State.reset.done = false := rfl
@[simp] theorem reset_fault : State.reset.fault = .none := rfl
@[simp] theorem reset_result : State.reset.result = .none := rfl
@[simp] theorem reset_pending : State.reset.pending = [] := rfl

end Sys2Proof.Machine
end

