-- ==== Sys2Proof/Laws/Meanings.lean ====
section
/-! SUPPORT. What each operation can do: from a next state back to its cases, and what the invariant gives. -/

namespace Sys2Proof.Machine

/-- Under the invariant a loaded block reads a byte of BM at every offset. -/
theorem readBm_of_inv {s : State} (hi : s.Inv) (hl : s.loaded = true) {a : Nat} (ha : a < 6144) :
    ∃ v, Memory.read s.bm a = some v ∧ readBm s a = .ok v := by
  obtain ⟨v, hv⟩ := Option.isSome_iff_exists.mp (hi.bm_full hl a ha)
  exact ⟨v, hv, readSpace_ok ha hv⟩

/-- Under the invariant a loaded block reads a byte of AM at every offset. -/
theorem readAm_of_inv {s : State} (hi : s.Inv) (hl : s.loaded = true) {a : Nat} (ha : a < 768) :
    ∃ v, Memory.read s.am a = some v ∧ readAm s a = .ok v := by
  obtain ⟨v, hv⟩ := Option.isSome_iff_exists.mp (hi.am_full hl a ha)
  exact ⟨v, hv, readSpace_ok ha hv⟩

/-- Under the invariant a loaded block composes every pixel. -/
theorem composePixel_of_inv (pal : Palette) {s : State} (hi : s.Inv) (hl : s.loaded = true) {x y : Nat}
    (hx : x < 256) (hy : y < 192) :
    ∃ a byte, Memory.read s.am (amOffset x y) = some a ∧ Memory.read s.bm (bmOffset x y) = some byte ∧
      composePixel pal s x y = .ok (pixelPorts pal x y a byte) := by
  obtain ⟨a, ha, ha'⟩ := readAm_of_inv hi hl (amOffset_lt hx hy)
  obtain ⟨b, hb, hb'⟩ := readBm_of_inv hi hl (bmOffset_lt hx hy)
  refine ⟨a, b, ha, hb, composePixel_eq_ok.mpr ⟨a, b, ?_, ?_, rfl⟩⟩
  · rw [amAddrPort_toNat hx hy]; exact ha'
  · rw [bmAddrPort_toNat hx hy]; exact hb'

/-- Under the invariant a loaded block has a colour for every pixel of the raster. -/
theorem pixelColourAt_of_inv (pal : Palette) {s : State} (hi : s.Inv) (hl : s.loaded = true) {p : Nat}
    (hp : p < 49152) : ∃ c, pixelColourAt pal s p = .ok c := by
  obtain ⟨a, b, -, -, h⟩ := composePixel_of_inv pal hi hl (rasterX_lt p) (rasterY_lt hp)
  exact ⟨_, by simp [pixelColourAt, h]; rfl⟩

/-- A frame that succeeds gives each pixel index its colour and lists nothing else. -/
theorem frameColours_read {pal : Palette} {s : State} {cs : List RGB} (h : frameColours pal s = .ok cs) :
    cs.length = 49152 ∧ ∀ p, p < 49152 → ∃ c, Memory.read (Memory.ofList cs) p = some c ∧ pixelColourAt pal s p = .ok c := by
  obtain ⟨hl, hk⟩ := collect_ok_inv h
  refine ⟨by rw [hl]; exact List.length_range, fun p hp => ?_⟩
  rw [Memory.read_ofList]
  exact hk p p (List.getElem?_range hp)

/-- Under the invariant a loaded block composes the whole frame. -/
theorem frameColours_of_inv (pal : Palette) {s : State} (hi : s.Inv) (hl : s.loaded = true) :
    ∃ cs, frameColours pal s = .ok cs := by
  have h : ∀ p ∈ List.range Config.numPixels,
      pixelColourAt pal s p = .ok ((pixelColourAt pal s p).toOption.getD default) := by
    intro p hp
    obtain ⟨c, hc⟩ := pixelColourAt_of_inv pal hi hl (List.mem_range.mp hp)
    rw [hc]; rfl
  exact ⟨_, collect_eq_ok h⟩

/-- Everything a load that answers can do. -/
theorem loadSnapshot_next {snap : List Byte} {s t : State} (h : loadSnapshot snap s = .next t) :
    (snap.length < 6939 ∧ t = { s with fault := .formatError snap.length, result := .none }) ∨
    (6939 ≤ snap.length ∧ t = { s with
      bm := Memory.ofList (snapBitmap snap), am := Memory.ofList (snapAttributes snap), loaded := true, result := .none }) := by
  unfold loadSnapshot at h
  split at h
  · rename_i hn; cases h; exact .inl ⟨hn, rfl⟩
  · rename_i hn; cases h; exact .inr ⟨Nat.not_lt.mp hn, rfl⟩

theorem loadSnapshot_short {snap : List Byte} {s : State} (h : snap.length < 6939) :
    loadSnapshot snap s = .next { s with fault := .formatError snap.length, result := .none } := if_pos h

theorem loadSnapshot_long {snap : List Byte} {s : State} (h : 6939 ≤ snap.length) :
    loadSnapshot snap s = .next { s with
      bm := Memory.ofList (snapBitmap snap), am := Memory.ofList (snapAttributes snap), loaded := true,
      result := .none } := if_neg (Nat.not_lt.mpr h)

/-- Everything a frame that answers can do. -/
theorem composeFrame_next {s t : State} (h : composeFrame s = .next t) :
    (s.loaded = true ∧ ∃ cs, frameColours palette s = .ok cs ∧
      t = { s with raster := Memory.ofList cs, done := true, result := .none }) ∨
    (s.loaded = false ∧ t = { s with fault := .notLoaded, result := .none }) := by
  obtain ⟨hl, h⟩ | h := whenLoaded_next h
  · obtain ⟨cs, hcs, h⟩ := deliver_next h
    cases h; exact .inl ⟨hl, cs, hcs, rfl⟩
  · exact .inr h

theorem thenUnlessFaulted_next {o : Outcome} {k : State → Outcome} {t : State} (h : thenUnlessFaulted o k = .next t) :
    ∃ u, o = .next u ∧ ((u.fault ≠ .none ∧ t = u) ∨ (u.fault = .none ∧ k u = .next t)) := by
  cases o with
  | fault f => cases h
  | refused r => cases h
  | next u =>
    refine ⟨u, rfl, ?_⟩
    simp only [thenUnlessFaulted] at h
    split at h
    · exact .inr ⟨‹_›, h⟩
    · cases h; exact .inl ⟨‹_›, rfl⟩

/-- The snapshot's bitmap byte at an offset. -/
theorem snapBitmap_getElem? {snap : List Byte} {i : Nat} (hi : i < 6144) : (snapBitmap snap)[i]? = snap[27 + i]? := by
  simp [snapBitmap, hi]

/-- The snapshot's attribute byte at an offset. -/
theorem snapAttributes_getElem? {snap : List Byte} {j : Nat} (hj : j < 768) :
    (snapAttributes snap)[j]? = snap[6171 + j]? := by
  simp [snapAttributes, hj]

theorem snapBitmap_length {snap : List Byte} (h : 6939 ≤ snap.length) : (snapBitmap snap).length = 6144 := by
  simp only [snapBitmap, List.length_take, List.length_drop, Config.bmStart, Config.bmSize]; omega

theorem snapAttributes_length {snap : List Byte} (h : 6939 ≤ snap.length) : (snapAttributes snap).length = 768 := by
  simp only [snapAttributes, List.length_take, List.length_drop, Config.amStart, Config.amSize]; omega

end Sys2Proof.Machine
end

