-- ==== Sys2Proof/Laws/Effect.lean ====
section
/-! SUPPORT. Said once: everything an operation that answers a next state can have done. -/

namespace Sys2Proof.Machine

/-- The operations that write no item of the state but FAULT. -/
def Reading : Instr → Prop
  | .load _ | .pixel _ _ | .frame | .render _ => False
  | _ => True

/-- The operation `i` raises the fault `f` in the state `s` (60_exceptions.md R150). -/
inductive Raises : Instr → State → FaultFlag → Prop where
  | loadShort {snap s} (hl : s.loaded = false) (h : snap.length < 6939) : Raises (.load snap) s (.formatError snap.length)
  | renderShort {snap s} (hl : s.loaded = false) (h : snap.length < 6939) : Raises (.render snap) s (.formatError snap.length)
  | xlateRange {x y s} (h : ¬ (x < 256 ∧ y < 192)) : Raises (.xlate x y) s (.coordinateRange x y)
  | cellRange {x y s} (h : ¬ (x < 256 ∧ y < 192)) : Raises (.cell x y) s (.coordinateRange x y)
  | bmreadRange {x y s} (hl : s.loaded = true) (h : ¬ (x < 256 ∧ y < 192)) : Raises (.bmread x y) s (.coordinateRange x y)
  | atreadRange {x y s} (hl : s.loaded = true) (h : ¬ (x < 256 ∧ y < 192)) : Raises (.atread x y) s (.coordinateRange x y)
  | pixelRange {x y s} (hl : s.loaded = true) (h : ¬ (x < 256 ∧ y < 192)) : Raises (.pixel x y) s (.coordinateRange x y)
  | bmreadUnloaded {x y s} (hl : s.loaded = false) : Raises (.bmread x y) s .notLoaded
  | atreadUnloaded {x y s} (hl : s.loaded = false) : Raises (.atread x y) s .notLoaded
  | pixelUnloaded {x y s} (hl : s.loaded = false) : Raises (.pixel x y) s .notLoaded
  | frameUnloaded {s} (hl : s.loaded = false) : Raises .frame s .notLoaded

/-- The state after the two regions of a snapshot are copied. -/
def loadedWith (snap : List Byte) (s : State) : State :=
  { s with bm := Memory.ofList (snapBitmap snap), am := Memory.ofList (snapAttributes snap), loaded := true, result := .none }

/-- The state after a frame of the colours `cs`. -/
def framedWith (cs : List RGB) (s : State) : State :=
  { s with raster := Memory.ofList cs, done := true, result := .none }

/-- What an operation that answers a next state can have done. -/
inductive Effect : Instr → State → State → Prop where
  | gives {i s} (r : Result) (h : Reading i) : Effect i s { s with result := r }
  | raises {i s f} (h : Raises i s f) : Effect i s { s with fault := f, result := .none }
  | loads {snap s} (hl : s.loaded = false) (hn : 6939 ≤ snap.length) : Effect (.load snap) s (loadedWith snap s)
  | composes {x y s c} (hl : s.loaded = true) (hx : x < 256) (hy : y < 192)
      (hc : pixelColourAt palette s (rasterIndex x y) = .ok c) :
      Effect (.pixel x y) s { s with raster := Memory.write s.raster (rasterIndex x y) c, result := .none }
  | frames {s cs} (hl : s.loaded = true) (h : frameColours palette s = .ok cs) : Effect .frame s (framedWith cs s)
  | renders {snap s cs} (hl : s.loaded = false) (hd : s.done = false) (hn : 6939 ≤ snap.length)
      (h : frameColours palette (loadedWith snap s) = .ok cs) :
      Effect (.render snap) s (framedWith cs (loadedWith snap s))

/-- Everything RENDER of a long enough snapshot does from the reset state: the copy, then the frame. -/
theorem execRender_of_fresh {snap : List Byte} {s : State} (hf : s.fault = .none) (hl : s.loaded = false)
    (hd : s.done = false) (hn : 6939 ≤ snap.length) : execRender snap s = composeFrame (loadedWith snap s) := by
  unfold execRender
  rw [whenAdmitted_of_none hf, whenFresh_of_fresh hl hd, loadSnapshot_long hn]
  exact if_pos hf

/-- A loaded block whose colours are all there composes the frame. -/
theorem composeFrame_of_colours {s : State} {cs : List RGB} (hl : s.loaded = true)
    (h : frameColours palette s = .ok cs) : composeFrame s = .next (framedWith cs s) := by
  unfold composeFrame
  rw [whenLoaded_of_true hl, h]; rfl

theorem Raises.ne_none {i : Instr} {s : State} {f : FaultFlag} (h : Raises i s f) : f ≠ .none := by
  cases h <;> simp

/-- The colour that PIXEL writes is the one of its own index. -/
theorem composePixel_colour {s : State} {x y : Nat} {ports : PixelPorts} (hx : x < 256)
    (h : composePixel palette s x y = .ok ports) :
    pixelColourAt palette s (rasterIndex x y) = .ok ports.rasterData.colour := by
  simp [pixelColourAt, rasterX_rasterIndex hx, rasterY_rasterIndex hx, h]

/-- PIXEL in range on a loaded block writes the colour of its index. -/
theorem execPixel_of_colour {s : State} {x y : Nat} {c : RGB} (hf : s.fault = .none) (hl : s.loaded = true)
    (hx : x < 256) (hy : y < 192) (hc : pixelColourAt palette s (rasterIndex x y) = .ok c) :
    execPixel x y s = .next { s with raster := Memory.write s.raster (rasterIndex x y) c, result := .none } := by
  unfold pixelColourAt at hc
  rw [rasterX_rasterIndex hx, rasterY_rasterIndex hx] at hc
  unfold execPixel
  rw [whenAdmitted_of_none hf, whenLoaded_of_true hl, whenInRange_of_lt hx hy]
  cases hp : composePixel palette s x y with
  | error f => simp [hp] at hc
  | ok ports =>
    simp only [hp, Except.ok.injEq] at hc
    obtain ⟨a, byte, -, -, hports⟩ := composePixel_eq_ok.mp hp
    have : ports.rasterAddr = rasterAddrPort x y := by rw [hports]; rfl
    simp only [deliver, give, writeRaster, this, rasterAddrPort_toNat hx hy, hc]

/-- Every operation that answers a next state was admitted, and did one of the things of `Effect`. -/
theorem exec_effect {i : Instr} {s t : State} (h : exec i s = .next t) : s.fault = .none ∧ Effect i s t := by
  cases i with
  | load snap =>
    obtain ⟨hf, h⟩ := whenAdmitted_next h
    refine ⟨hf, ?_⟩
    by_cases hl : s.loaded = false
    · rw [whenNotLoaded_of_false hl] at h
      obtain ⟨hn, rfl⟩ | ⟨hn, rfl⟩ := loadSnapshot_next h
      · exact .raises (.loadShort hl hn)
      · exact .loads hl hn
    · simp [whenNotLoaded, hl] at h
  | xlate x y =>
    obtain ⟨hf, h⟩ := whenAdmitted_next h
    obtain ⟨-, h⟩ | ⟨hr, rfl⟩ := whenInRange_next h
    · rw [give_next h]; exact ⟨hf, .gives _ trivial⟩
    · exact ⟨hf, .raises (.xlateRange hr)⟩
  | bmread x y =>
    obtain ⟨hf, h⟩ := whenAdmitted_next h
    obtain ⟨hl, h⟩ | ⟨hl, rfl⟩ := whenLoaded_next h
    · obtain ⟨-, h⟩ | ⟨hr, rfl⟩ := whenInRange_next h
      · obtain ⟨v, -, h⟩ := deliver_next h
        rw [give_next h]; exact ⟨hf, .gives _ trivial⟩
      · exact ⟨hf, .raises (.bmreadRange hl hr)⟩
    · exact ⟨hf, .raises (.bmreadUnloaded hl)⟩
  | attrdec a => obtain ⟨hf, h⟩ := whenAdmitted_next h; rw [give_next h]; exact ⟨hf, .gives _ trivial⟩
  | pallut index bright => obtain ⟨hf, h⟩ := whenAdmitted_next h; rw [give_next h]; exact ⟨hf, .gives _ trivial⟩
  | cresolve a => obtain ⟨hf, h⟩ := whenAdmitted_next h; rw [give_next h]; exact ⟨hf, .gives _ trivial⟩
  | cell x y =>
    obtain ⟨hf, h⟩ := whenAdmitted_next h
    obtain ⟨-, h⟩ | ⟨hr, rfl⟩ := whenInRange_next h
    · rw [give_next h]; exact ⟨hf, .gives _ trivial⟩
    · exact ⟨hf, .raises (.cellRange hr)⟩
  | atread x y =>
    obtain ⟨hf, h⟩ := whenAdmitted_next h
    obtain ⟨hl, h⟩ | ⟨hl, rfl⟩ := whenLoaded_next h
    · obtain ⟨-, h⟩ | ⟨hr, rfl⟩ := whenInRange_next h
      · obtain ⟨v, -, h⟩ := deliver_next h
        rw [give_next h]; exact ⟨hf, .gives _ trivial⟩
      · exact ⟨hf, .raises (.atreadRange hl hr)⟩
    · exact ⟨hf, .raises (.atreadUnloaded hl)⟩
  | bitsel byte x => obtain ⟨hf, h⟩ := whenAdmitted_next h; rw [give_next h]; exact ⟨hf, .gives _ trivial⟩
  | pixel x y =>
    obtain ⟨hf, h'⟩ := whenAdmitted_next h
    obtain ⟨hl, h'⟩ | ⟨hl, rfl⟩ := whenLoaded_next h'
    · obtain ⟨⟨hx, hy⟩, h'⟩ | ⟨hr, rfl⟩ := whenInRange_next h'
      · obtain ⟨ports, hp, -⟩ := deliver_next h'
        have hc := composePixel_colour hx hp
        have h2 : exec (.pixel x y) s = _ := execPixel_of_colour hf hl hx hy hc
        rw [h] at h2; injection h2 with h2; subst h2
        exact ⟨hf, .composes hl hx hy hc⟩
      · exact ⟨hf, .raises (.pixelRange hl hr)⟩
    · exact ⟨hf, .raises (.pixelUnloaded hl)⟩
  | frame =>
    obtain ⟨hf, h⟩ := whenAdmitted_next h
    obtain ⟨hl, cs, hcs, rfl⟩ | ⟨hl, rfl⟩ := composeFrame_next h
    · exact ⟨hf, .frames hl hcs⟩
    · exact ⟨hf, .raises (.frameUnloaded hl)⟩
  | render snap =>
    obtain ⟨hf, h⟩ := whenAdmitted_next h
    refine ⟨hf, ?_⟩
    by_cases hl : s.loaded = false ∧ s.done = false
    · rw [whenFresh_of_fresh hl.1 hl.2] at h
      obtain ⟨u, hu, ⟨hv, rfl⟩ | ⟨hv, hk⟩⟩ := thenUnlessFaulted_next h
      · obtain ⟨hn, rfl⟩ | ⟨hn, rfl⟩ := loadSnapshot_next hu
        · exact .raises (.renderShort hl.1 hn)
        · exact absurd hf hv
      · obtain ⟨hn, rfl⟩ | ⟨hn, rfl⟩ := loadSnapshot_next hu
        · simp at hv
        · obtain ⟨-, cs, hcs, rfl⟩ | ⟨hl', -⟩ := composeFrame_next hk
          · exact .renders hl.1 hl.2 hn hcs
          · simp at hl'
    · simp [whenFresh, hl] at h

end Sys2Proof.Machine
end

