-- ==== Sys2Proof/Laws/PerInstr.lean ====
section
/-! SUPPORT. A statement about each instruction as syntax: the request that selects it has the shape of its format. -/

namespace Sys2Proof.Laws.RequestShape

/-- The number of bytes each port group takes: a COORD word two, an ATTR or PALADDR byte one, BITSEL the byte and X,
FRAME none; a snapshot has any length (30_encoding.md R51 to R58, R66). -/
def operandBytes : PortGroup → Option Nat
  | .load     => none
  | .xlate    => some 2
  | .bmread   => some 2
  | .attrdec  => some 1
  | .pallut   => some 1
  | .cresolve => some 1
  | .cell     => some 2
  | .atread   => some 2
  | .bitsel   => some 2
  | .pixel    => some 2
  | .frame    => some 0
  | .render   => none

/-- The request of the instruction has as many bytes as its port group takes. -/
def Statement (i : Instr) : Prop := ∀ n, operandBytes (encode i).group = some n → (encode i).operand.length = n

theorem load (snap : List Byte) : Statement (.load snap) := by intro n h; cases h
theorem xlate (x y : Nat) : Statement (.xlate x y) := by intro n h; cases h; rfl
theorem bmread (x y : Nat) : Statement (.bmread x y) := by intro n h; cases h; rfl
theorem attrdec (a : Byte) : Statement (.attrdec a) := by intro n h; cases h; rfl
theorem pallut (index : ColourIndex) (bright : Bool) : Statement (.pallut index bright) := by intro n h; cases h; rfl
theorem cresolve (a : Byte) : Statement (.cresolve a) := by intro n h; cases h; rfl
theorem cell (x y : Nat) : Statement (.cell x y) := by intro n h; cases h; rfl
theorem atread (x y : Nat) : Statement (.atread x y) := by intro n h; cases h; rfl
theorem bitsel (byte : Byte) (x : Nat) : Statement (.bitsel byte x) := by intro n h; cases h; rfl
theorem pixel (x y : Nat) : Statement (.pixel x y) := by intro n h; cases h; rfl
theorem frame : Statement .frame := by intro n h; cases h; rfl
theorem render (snap : List Byte) : Statement (.render snap) := by intro n h; cases h

end Sys2Proof.Laws.RequestShape
end

