-- ==== Sys2Proof/Laws/Step.lean ====
section
/-! SUPPORT. Said once: everything a step that answers a next state can have done. -/

namespace Sys2Proof.Machine

/-- A step that answers does one of four things: nothing, with no move pending; an operation's effect; the host's
reset; or a read by the host, which writes no item of the spec's state. -/
theorem step_cases {s t : State} (h : step s = .next t) :
    (s.pending = [] ∧ t = s) ∨
    (∃ r rest i, s.pending = .operation r :: rest ∧ decode r = .ok i ∧ exec i { s with pending := rest } = .next t) ∨
    (∃ rest, s.pending = .reset :: rest ∧ t = { State.reset with pending := rest }) ∨
    (∃ m rest r, s.pending = m :: rest ∧ (m = .readStatus ∨ m = .readRaster ∨ ∃ p, m = .readPixel p) ∧
      t = { s with pending := rest, result := r }) := by
  unfold step serveNext at h
  split at h
  · cases h; exact .inl ⟨‹_›, rfl⟩
  · rename_i m rest hp
    right
    cases m with
    | operation r =>
      simp only [serve, serveOperation] at h
      split at h
      · exact .inl ⟨r, rest, _, hp, ‹_›, h⟩
      · cases h
    | reset => cases h; exact .inr (.inl ⟨rest, hp, rfl⟩)
    | readStatus => cases h; exact .inr (.inr ⟨_, rest, _, hp, .inl rfl, rfl⟩)
    | readPixel p =>
      simp only [serve, serveReadPixel, whenReadable] at h
      split at h
      · obtain ⟨v, -, h⟩ := deliver_next h; cases h; exact .inr (.inr ⟨_, rest, _, hp, .inr (.inr ⟨p, rfl⟩), rfl⟩)
      · cases h
    | readRaster =>
      simp only [serve, serveReadRaster, whenReadable] at h
      split at h
      · obtain ⟨v, -, h⟩ := deliver_next h; cases h; exact .inr (.inr ⟨_, rest, _, hp, .inr (.inl rfl), rfl⟩)
      · cases h

/-- The invariant looks at the items of the spec alone: a state that agrees on them has it too. -/
theorem State.Inv.congr {s t : State} (hi : s.Inv) (hb : t.bm = s.bm) (ha : t.am = s.am) (hr : t.raster = s.raster)
    (hl : t.loaded = s.loaded) (hd : t.done = s.done) : t.Inv where
  bm_wf := by rw [hb]; exact hi.bm_wf
  am_wf := by rw [ha]; exact hi.am_wf
  raster_wf := by rw [hr]; exact hi.raster_wf
  unloaded := by rw [hb, ha, hr, hl, hd]; exact hi.unloaded
  bm_full := by rw [hb, hl]; exact hi.bm_full
  am_full := by rw [ha, hl]; exact hi.am_full
  raster_full := by rw [hr, hd]; exact hi.raster_full
  raster_ok := fun p c h => by rw [pixelColourAt_congr hb ha]; exact hi.raster_ok p c (by rw [← hr]; exact h)

/-- The state right after a load has the invariant. -/
theorem loadedWith_inv {snap : List Byte} {s : State} (hr : s.raster = []) (hd : s.done = false)
    (hn : 6939 ≤ snap.length) : (loadedWith snap s).Inv where
  bm_wf := Memory.wf_ofList _ (Nat.le_of_eq (snapBitmap_length hn))
  am_wf := Memory.wf_ofList _ (Nat.le_of_eq (snapAttributes_length hn))
  raster_wf := by simp [loadedWith, hr]
  unloaded := fun h => absurd h (by simp [loadedWith])
  bm_full := fun _ a ha => by simp [loadedWith, snapBitmap_length hn]; exact ha
  am_full := fun _ a ha => by simp [loadedWith, snapAttributes_length hn]; exact ha
  raster_full := fun h => absurd h (by simp [loadedWith, hd])
  raster_ok := fun p c h => by simp [loadedWith, hr] at h

/-- The state right after a frame has the invariant. -/
theorem framedWith_inv {s : State} {cs : List RGB} (hi : s.Inv) (hl : s.loaded = true)
    (hcs : frameColours palette s = .ok cs) : (framedWith cs s).Inv := by
  obtain ⟨hlen, hrd⟩ := frameColours_read hcs
  refine ⟨hi.bm_wf, hi.am_wf, Memory.wf_ofList _ (Nat.le_of_eq hlen), ?_, hi.bm_full, hi.am_full, ?_, ?_⟩
  · intro h
    have h' : s.loaded = false := h
    rw [hl] at h'; cases h'
  · intro _ p hp
    obtain ⟨c, h, -⟩ := hrd p hp
    simp only [framedWith, h]; rfl
  · intro p c hc
    have hc' : Memory.read (Memory.ofList cs) p = some c := hc
    have hp : p < 49152 := by
      rw [Memory.read_ofList] at hc'
      have := (List.getElem?_eq_some_iff.mp hc').1; omega
    obtain ⟨d, h1, h2⟩ := hrd p hp
    rw [h1] at hc'; cases hc'
    exact (pixelColourAt_congr (s := s) rfl rfl p).trans h2

end Sys2Proof.Machine
end

