-- ==== Sys2Proof/Tests/Slice0.lean ====
section
/-! SUPPORT. The model's own tests: expected values from spec/95_test_vectors.md and the worked examples of the rules; and
for each statement with hypotheses a witness that meets them. -/

namespace Sys2Proof.Tests

open Sys2Proof.Machine

/-! ### Helpers -/

/-- The result a step gives back. -/
def resultOf : Outcome → Option Result
  | .next s => some s.result
  | _ => none

/-- FAULT after a step. -/
def faultOf : Outcome → Option FaultFlag
  | .next s => some s.fault
  | _ => none

/-- RASTER after a step. -/
def rasterOf : Outcome → Option (List (Nat × RGB))
  | .next s => some s.raster
  | _ => none

/-- Why a move has no step. -/
def refusalOf : Outcome → Option Refusal
  | .refused r => some r
  | _ => none

/-- A small loaded state: the bytes of 95_test_vectors.md section 4 around pixel (3, 120) and pixel (0, 8). -/
def tiny : State :=
  { State.reset with bm := [(32, 0x80), (2272, 0x0F)], am := [(32, 0x10), (480, 0x10)], loaded := true }

/-! ### WellFormed: an ill-formed term for each check is refused -/

theorem test_wf_xlate_x : (Instr.xlate 256 0).wf = false := by decide
theorem test_wf_xlate_y : (Instr.xlate 0 256).wf = false := by decide
theorem test_wf_bmread : (Instr.bmread 256 256).wf = false := by decide
theorem test_wf_cell : (Instr.cell 256 0).wf = false := by decide
theorem test_wf_atread : (Instr.atread 0 256).wf = false := by decide
theorem test_wf_bitsel : (Instr.bitsel 0 256).wf = false := by decide
theorem test_wf_pixel : (Instr.pixel 256 0).wf = false := by decide
theorem test_wf_top_row_fits : (Instr.pixel 255 255).wf = true := by decide

/-! ### Decoding: words written out from 30_encoding.md, one per constructor -/

/-- COORD 0111 1000 0000 0000 is y = 120, x = 0 (95_test_vectors.md P1). -/
theorem test_decode_xlate : decode ⟨.xlate, [0b00000000, 0b01111000]⟩ = .ok (.xlate 0 120) := by simp [decode, decodeCoord]
/-- COORD 1001 0110 0010 0101 is y = 150, x = 37 (95_test_vectors.md section 2). -/
theorem test_decode_bmread : decode ⟨.bmread, [0b00100101, 0b10010110]⟩ = .ok (.bmread 37 150) := by simp [decode, decodeCoord]
theorem test_decode_attrdec : decode ⟨.attrdec, [0b01010000]⟩ = .ok (.attrdec 0x50) := by simp [decode, decodeAttr]
/-- PALADDR 1 010: bright, index 2 (30_encoding.md R56). -/
theorem test_decode_pallut : decode ⟨.pallut, [0b00001010]⟩ = .ok (.pallut 2 true) := by simp [decode, decodePallut]
theorem test_decode_pallut_unused_bits : decode ⟨.pallut, [0b00011010]⟩ = .error (.unusedBits .pallut 0x1A) := by
  simp [decode, decodePallut]
theorem test_decode_cresolve : decode ⟨.cresolve, [0b00111000]⟩ = .ok (.cresolve 0x38) := by simp [decode, decodeAttr]
theorem test_decode_cell : decode ⟨.cell, [0b01100100, 0b01100100]⟩ = .ok (.cell 100 100) := by simp [decode, decodeCoord]
theorem test_decode_atread : decode ⟨.atread, [0b00000011, 0b01111000]⟩ = .ok (.atread 3 120) := by simp [decode, decodeCoord]
theorem test_decode_bitsel : decode ⟨.bitsel, [0b10000000, 0b11111000]⟩ = .ok (.bitsel 0x80 248) := by simp [decode, decodeBitsel]
/-- COORD 1011 1111 1111 1111 is y = 191, x = 255 (95_test_vectors.md P4). -/
theorem test_decode_pixel : decode ⟨.pixel, [0b11111111, 0b10111111]⟩ = .ok (.pixel 255 191) := by simp [decode, decodeCoord]
theorem test_decode_frame : decode ⟨.frame, []⟩ = .ok .frame := by simp [decode, decodeFrame]
theorem test_decode_frame_operand : decode ⟨.frame, [0]⟩ = .error (.operandLength .frame 1) := by simp [decode, decodeFrame]
theorem test_decode_load : decode ⟨.load, [1, 2, 3]⟩ = .ok (.load [1, 2, 3]) := by simp [decode]
theorem test_decode_render : decode ⟨.render, []⟩ = .ok (.render []) := by simp [decode]

/-- The table's words (log entry 9): COORD, ATTR, PALADDR, and BITSEL's abcdefghppp = 10000000 111. -/
theorem test_table_coord : decodeTableWord 16 0x7800 = some (.xlate 0 120) := by decide
theorem test_table_attr : decodeTableWord 8 0x50 = some (.attrdec 0x50) := by decide
theorem test_table_paladdr : decodeTableWord 4 0b1010 = some (.pallut 2 true) := by decide
theorem test_table_bitsel : decodeTableWord 11 0b10000000111 = some (.bitsel 0x80 7) := by decide
theorem test_fetch_word_runs : resultOf (step (State.reset.withFetchWord 16 0x7800)) = some (.bmAddr 2272) := by decide

/-! ### The operations -/

theorem test_xlate_row_120 : resultOf (exec (.xlate 0 120) State.reset) = some (.bmAddr 2272) := by decide
theorem test_xlate_below_screen : faultOf (exec (.xlate 0 192) State.reset) = some (.coordinateRange 0 192) := by decide
theorem test_bmread_tiny : resultOf (exec (.bmread 5 120) tiny) = some (.bmData 0x0F) := by decide
theorem test_bmread_priority : faultOf (exec (.bmread 0 192) State.reset) = some .notLoaded := by decide
theorem test_attrdec_50 : resultOf (exec (.attrdec 0x50) State.reset) = some (.attrFields true 2 0) := by decide
theorem test_pallut_red : resultOf (exec (.pallut 2 false) State.reset) = some (.rgb ⟨215, 0, 0⟩) := by decide
theorem test_pallut_bright_white : resultOf (exec (.pallut 7 true) State.reset) = some (.rgb ⟨255, 255, 255⟩) := by decide
theorem test_cresolve_90 : resultOf (exec (.cresolve 0x90) State.reset) = some (.colours ⟨215, 0, 0⟩ ⟨0, 0, 0⟩) := by decide
theorem test_cresolve_02 : resultOf (exec (.cresolve 0x02) State.reset) = some (.colours ⟨0, 0, 0⟩ ⟨215, 0, 0⟩) := by decide
theorem test_cell_100_100 : resultOf (exec (.cell 100 100) State.reset) = some (.amAddr 396) := by decide
theorem test_cell_abstract_x : faultOf (exec (.cell 256 0) State.reset) = some (.coordinateRange 256 0) := by decide
theorem test_atread_tiny : resultOf (exec (.atread 3 120) tiny) = some (.amData 0x10) := by decide
theorem test_bitsel_248 : resultOf (exec (.bitsel 0x80 248) State.reset) = some (.pixBit true) := by decide
theorem test_bitsel_255 : resultOf (exec (.bitsel 0x80 255) State.reset) = some (.pixBit false) := by decide
/-- 95_test_vectors.md section 4: paper at (3, 120), ink at (4, 120). -/
theorem test_pixel_paper : rasterOf (exec (.pixel 3 120) tiny) = some [(30723, ⟨215, 0, 0⟩)] := by decide
theorem test_pixel_ink : rasterOf (exec (.pixel 4 120) tiny) = some [(30724, ⟨0, 0, 0⟩)] := by decide
theorem test_frame_unloaded : faultOf (exec .frame State.reset) = some .notLoaded := by decide
theorem test_load_short : faultOf (exec (.load [1, 2, 3]) State.reset) = some (.formatError 3) := by decide
theorem test_render_empty : faultOf (exec (.render []) State.reset) = some (.formatError 0) := by decide
theorem test_render_loaded : refusalOf (exec (.render []) tiny) = some .notResetState := by decide

/-- 95_test_vectors.md section 3, default palette. -/
theorem test_default_palette_29 : resolve Config.defaultPalette 0x29 = (⟨0, 215, 215⟩, ⟨0, 0, 215⟩) := by decide
theorem test_default_palette_d6 : resolve Config.defaultPalette 0xD6 = (⟨255, 0, 0⟩, ⟨255, 255, 0⟩) := by decide

/-- 41_address_translator.md, the complete row map: y = 150 is memory row 178, y = 100 row 100. -/
theorem test_row_map : memRow 150 = 178 ∧ memRow 100 = 100 ∧ memRow 1 = 8 ∧ memRow 184 = 135 := by decide

/-- After a fault an operation is refused; the host still reads STATUS, and its reset leads on (95_test_vectors.md, faults
as a sequence). -/
theorem test_sticky : refusalOf (exec (.xlate 0 0) { State.reset with fault := .notLoaded }) = some .faultPending := by decide
theorem test_status_after_fault :
    resultOf (step ({ State.reset with fault := .notLoaded }.withMove .readStatus)) = some (.status false false .notLoaded) := by
  decide
theorem test_reset_after_fault : faultOf (step ({ tiny with fault := .notLoaded }.withMove .reset)) = some .none := by decide
theorem test_early_read : refusalOf (step (tiny.withMove (.readPixel 0))) = some .rasterNotReadable := by decide
theorem test_fault_codes :
    faultCode (.formatError 0) = some 1 ∧ faultCode (.coordinateRange 0 192) = some 2 ∧ faultCode .notLoaded = some 3 := by
  decide

/-! ### A snapshot of zeros, loaded and framed (95_test_vectors.md P5a) -/

/-- `zeros(6939)`. -/
@[irreducible] def zeroSnap : List Byte := List.replicate 6939 0

/-- The state after LOAD of zeros. -/
def loadedZero : State := loadedWith zeroSnap State.reset

/-- 49152 black pixels. -/
@[irreducible] def blackPixels : List RGB := List.replicate 49152 ⟨0, 0, 0⟩

/-- The state after RENDER of zeros: every pixel black. -/
def framedZero : State := framedWith blackPixels loadedZero

theorem zeroSnap_length : zeroSnap.length = 6939 := by rw [zeroSnap, List.length_replicate]

theorem loadedZero_inv : loadedZero.Inv := loadedWith_inv rfl rfl (Nat.le_of_eq zeroSnap_length.symm)

theorem loadedZero_bm {a : Nat} (ha : a < 6144) : Memory.read loadedZero.bm a = some 0 := by
  simp only [loadedZero, loadedWith, Memory.read_ofList, snapBitmap_getElem? ha, zeroSnap]
  rw [List.getElem?_replicate, if_pos (by omega)]

theorem loadedZero_am {a : Nat} (ha : a < 768) : Memory.read loadedZero.am a = some 0 := by
  simp only [loadedZero, loadedWith, Memory.read_ofList, snapAttributes_getElem? ha, zeroSnap]
  rw [List.getElem?_replicate, if_pos (by omega)]

theorem loadedZero_colour {p : Nat} (hp : p < 49152) : pixelColourAt palette loadedZero p = .ok ⟨0, 0, 0⟩ := by
  have hx := rasterX_lt p
  have hy := rasterY_lt hp
  obtain ⟨a, b, ha, hb, h⟩ := composePixel_of_inv palette loadedZero_inv rfl hx hy
  rw [loadedZero_am (amOffset_lt hx hy)] at ha
  rw [loadedZero_bm (bmOffset_lt hx hy)] at hb
  cases ha; cases hb
  simp only [pixelColourAt, h, pixelPorts]
  split <;> exact congrArg Except.ok palette_black

theorem loadedZero_frame : frameColours palette loadedZero = .ok blackPixels := by
  have h := collect_eq_ok (f := pixelColourAt palette loadedZero) (ns := List.range Config.numPixels)
    (g := fun _ => (⟨0, 0, 0⟩ : RGB)) fun p hp => loadedZero_colour (List.mem_range.mp hp)
  rw [frameColours, h, blackPixels, List.map_const', List.length_range, Config.numPixels]

/-- P5a: FRAME after LOAD of zeros gives an all-black raster and DONE. -/
theorem test_frame_zeros : exec .frame loadedZero = .next framedZero := by
  rw [exec, execFrame, whenAdmitted_of_none rfl, composeFrame_of_colours rfl loadedZero_frame]; rfl

/-- P5a: RENDER of zeros from reset. -/
theorem test_render_zeros : exec (.render zeroSnap) State.reset = .next framedZero := by
  rw [exec, execRender_of_fresh rfl rfl rfl (Nat.le_of_eq zeroSnap_length.symm)]
  exact composeFrame_of_colours rfl loadedZero_frame

theorem framedZero_inv : framedZero.Inv := framedWith_inv loadedZero_inv rfl loadedZero_frame

/-- The worked example of 40_loader.md: SNAP[2299] goes to BM[2272]. -/
theorem test_load_example : ∃ t, exec (.load (zeroSnap.set 2299 0xFF)) State.reset = .next t ∧
    Memory.read t.bm 2272 = some 0xFF ∧ t.loaded = true := by
  have hn : 6939 ≤ (zeroSnap.set 2299 0xFF).length := by rw [List.length_set]; exact Nat.le_of_eq zeroSnap_length.symm
  refine ⟨loadedWith (zeroSnap.set 2299 0xFF) State.reset, loadSnapshot_long hn, ?_, rfl⟩
  simp only [loadedWith, Memory.read_ofList]
  rw [snapBitmap_getElem? (by decide), List.getElem?_set_self (by rw [zeroSnap_length]; decide)]

/-! ### Witnesses: for each statement with hypotheses, operands that meet them, at the boundaries of its clauses -/

theorem witness_DecodeInvertsEncode : (Instr.pixel 255 255).wf = true ∧ (Instr.bitsel 0xFF 255).wf = true := by decide
theorem witness_EncodeInvertsDecode : decode ⟨.pallut, [0x0F]⟩ = .ok (.pallut 7 true) := by simp [decode, decodePallut]
theorem witness_AddressesAreBitSlices : (191#8).toNat < 192 ∧ (0#8).toNat < 192 := by decide
theorem witness_PortsCarryLegalAddressesWhole : (255 : Nat) < 256 ∧ (191 : Nat) < 192 := by decide
theorem witness_StepRunsDecodedInstruction :
    (State.reset.withMove (.operation ⟨.xlate, [0, 191]⟩)).pending = .operation ⟨.xlate, [0, 191]⟩ :: [] ∧
      decode ⟨.xlate, [0, 191]⟩ = .ok (.xlate 0 191) := ⟨rfl, rfl⟩
theorem witness_UndecodableRequestIsRefused :
    (State.reset.withMove (.operation ⟨.frame, [0]⟩)).pending = .operation ⟨.frame, [0]⟩ :: [] ∧
      decode ⟨.frame, [0]⟩ = .error (.operandLength .frame 1) := ⟨rfl, rfl⟩
theorem witness_TableWordRunsAtNextStep : decodeTableWord 16 0xBFFF = some (.xlate 255 191) := by decide

/-- The reset state is admitted, unloaded and fresh: LOAD, RENDER and the unloaded clauses. -/
theorem witness_fresh : State.reset.fault = .none ∧ State.reset.loaded = false ∧ State.reset.done = false := ⟨rfl, rfl, rfl⟩
theorem witness_LoadCopiesBothRegions : 6939 ≤ zeroSnap.length ∧ (zeroSnap.take 6938).length < 6939 := by
  rw [List.length_take, zeroSnap_length]; decide
theorem witness_LoadChecksOnlyTheLength : State.reset.fault = .none ∧ State.reset.loaded = false ∧ ([] : List Byte).length < 6939 :=
  ⟨rfl, rfl, by decide⟩
theorem witness_SecondLoadIsRefused : loadedZero.fault = .none ∧ loadedZero.loaded = true := ⟨rfl, rfl⟩
theorem witness_LoadEqualsItsByteWrites :
    State.reset.fault = .none ∧ State.reset.loaded = false ∧ 6939 ≤ zeroSnap.length :=
  ⟨rfl, rfl, Nat.le_of_eq zeroSnap_length.symm⟩
/-- Two snapshots that differ in the header and in the tail. -/
theorem witness_HeaderAndTailAreNotRead :
    6939 ≤ zeroSnap.length ∧ 6939 ≤ (zeroSnap.set 26 1 ++ [1]).length ∧
      ∀ k, 27 ≤ k → k ≤ 6938 → zeroSnap[k]? = (zeroSnap.set 26 1 ++ [1])[k]? := by
  refine ⟨Nat.le_of_eq zeroSnap_length.symm, ?_, fun k h1 h2 => ?_⟩
  · rw [List.length_append, List.length_set, zeroSnap_length]; decide
  · rw [List.getElem?_append_left (by rw [List.length_set, zeroSnap_length]; omega), List.getElem?_set_ne (by omega)]

theorem witness_XlateGivesOffset : State.reset.fault = .none ∧ (255 : Nat) < 256 ∧ (191 : Nat) < 192 := ⟨rfl, by decide, by decide⟩
/-- The last row and the last offset of BM, which the coordinates (248, 191) to (255, 191) address. -/
theorem witness_RowMapIsBijection : (191 : Nat) < 192 ∧ (6143 : Nat) < 6144 ∧ (255 : Nat) < 256 ∧ bmOffset 248 191 = 6143 ∧
    bmOffset 255 191 = 6143 := by decide
theorem witness_RowMapProperties : (191 : Nat) < 192 ∧ 190 % 8 < 7 ∧ 119 % 64 < 56 := by decide
/-- At the last byte of BM and of AM, and at the first coordinate below the screen. -/
theorem witness_BmreadGivesByte : loadedZero.Inv ∧ loadedZero.fault = .none ∧ loadedZero.loaded = true ∧
    (255 : Nat) < 256 ∧ (191 : Nat) < 192 ∧ (256 ≤ 0 ∨ (192 : Nat) ≤ 192) ∧ State.reset.loaded = false :=
  ⟨loadedZero_inv, rfl, rfl, by decide, by decide, by decide, rfl⟩
theorem witness_AttrdecGivesFields : State.reset.fault = .none := rfl
theorem witness_PallutGivesPaletteEntry : State.reset.fault = .none := rfl
theorem witness_CresolveGivesPair : State.reset.fault = .none := rfl
theorem witness_CresolveSourcedResults : loadedZero.fault = .none := rfl
theorem witness_CellGivesOffset : State.reset.fault = .none ∧ (255 : Nat) < 256 ∧ (191 : Nat) < 192 ∧ (256 ≤ 256 ∨ 192 ≤ 0) :=
  ⟨rfl, by decide, by decide, by decide⟩
theorem witness_AtreadGivesAttribute : loadedZero.Inv ∧ loadedZero.fault = .none ∧ loadedZero.loaded = true ∧
    (0 : Nat) < 256 ∧ (191 : Nat) < 192 ∧ (256 ≤ 256 ∨ 192 ≤ 0) ∧ State.reset.loaded = false :=
  ⟨loadedZero_inv, rfl, rfl, by decide, by decide, by decide, rfl⟩
theorem witness_BitselGivesBit : State.reset.fault = .none := rfl
theorem witness_CoordinatesShareBytes : (248 : Nat) < 256 ∧ (184 : Nat) < 192 ∧ (255 : Nat) < 256 ∧ (191 : Nat) < 192 ∧
    248 / 8 = 255 / 8 ∧ 184 / 8 = 191 / 8 := by decide
theorem witness_PixelWritesItsColour : loadedZero.Inv ∧ loadedZero.fault = .none ∧ loadedZero.loaded = true ∧
    (255 : Nat) < 256 ∧ (191 : Nat) < 192 ∧ (256 ≤ 0 ∨ (192 : Nat) ≤ 255) ∧ State.reset.loaded = false :=
  ⟨loadedZero_inv, rfl, rfl, by decide, by decide, by decide, rfl⟩
/-- A PIXEL that writes. -/
theorem witness_PixelFrame : ∃ t, exec (.pixel 255 191) loadedZero = .next t ∧ t.fault = .none :=
  ⟨_, execPixel_of_colour rfl rfl (by decide) (by decide) (loadedZero_colour (by decide)), rfl⟩
/-- A PIXEL that raises. -/
theorem witness_PixelFrame_raise : ∃ t, exec (.pixel 0 192) loadedZero = .next t ∧ t.fault ≠ .none :=
  ⟨{ loadedZero with fault := .coordinateRange 0 192, result := .none }, rfl, by simp⟩
theorem witness_PixelRepeats : ∃ t, exec (.pixel 0 0) loadedZero = .next t ∧ t.fault = .none :=
  ⟨_, execPixel_of_colour rfl rfl (by decide) (by decide) (loadedZero_colour (by decide)), rfl⟩
theorem witness_PixelStepsCommute : loadedZero.Inv ∧ loadedZero.fault = .none ∧ loadedZero.loaded = true ∧
    (WorkItem.mk 0 255 191).x < 256 ∧ (WorkItem.mk 0 255 191).y < 192 ∧ (WorkItem.mk 1 0 0).x < 256 ∧ (WorkItem.mk 1 0 0).y < 192 :=
  ⟨loadedZero_inv, rfl, rfl, by decide, by decide, by decide, by decide⟩
theorem witness_FrameComposesEveryPixel : loadedZero.Inv ∧ loadedZero.fault = .none ∧ loadedZero.loaded = true :=
  ⟨loadedZero_inv, rfl, rfl⟩
/-- The canonical order, one worker. -/
theorem witness_FrameEqualsEverySchedule : loadedZero.Inv ∧ loadedZero.fault = .none ∧ loadedZero.loaded = true ∧
    Schedule.valid 1 ((List.range Config.numPixels).map fun p => ⟨0, rasterX p, rasterY p⟩) := by
  refine ⟨loadedZero_inv, rfl, rfl, ?_, ?_⟩
  · intro w hw
    obtain ⟨p, -, rfl⟩ := List.mem_map.mp hw
    exact Nat.zero_lt_one
  · rw [List.map_map]; exact List.Perm.refl _
theorem witness_FrameAgainChangesNothing :
    framedZero.Inv ∧ framedZero.fault = .none ∧ framedZero.loaded = true ∧ framedZero.done = true :=
  ⟨framedZero_inv, rfl, rfl, rfl⟩
theorem witness_RenderIsLoadThenFrame : State.reset.fault = .none ∧ State.reset.loaded = false ∧ State.reset.done = false ∧
    6939 ≤ zeroSnap.length ∧ exec (.load zeroSnap) State.reset = .next loadedZero :=
  ⟨rfl, rfl, rfl, Nat.le_of_eq zeroSnap_length.symm, loadSnapshot_long (Nat.le_of_eq zeroSnap_length.symm)⟩
theorem witness_RenderClosedForm : State.reset.fault = .none ∧ State.reset.loaded = false ∧ State.reset.done = false ∧
    6939 ≤ zeroSnap.length ∧ (255 : Nat) < 256 ∧ (191 : Nat) < 192 :=
  ⟨rfl, rfl, rfl, Nat.le_of_eq zeroSnap_length.symm, by decide, by decide⟩
theorem witness_ShortRenderRaisesFormatError : State.reset.fault = .none ∧ State.reset.loaded = false ∧
    State.reset.done = false ∧ (zeroSnap.take 6938).length < 6939 := by
  refine ⟨rfl, rfl, rfl, ?_⟩
  rw [List.length_take, zeroSnap_length]; decide
theorem witness_OutOfRangeRaisesCoordinateRange : loadedZero.fault = .none ∧ loadedZero.loaded = true ∧
    (256 ≤ 256 ∨ 192 ≤ 191) ∧ (256 ≤ 255 ∨ (192 : Nat) ≤ 192) := ⟨rfl, rfl, by decide, by decide⟩
theorem witness_UnloadedRaisesNotLoaded : State.reset.fault = .none ∧ State.reset.loaded = false := ⟨rfl, rfl⟩
theorem witness_RaiseWritesOnlyFault : ∃ t, exec (.cell 0 192) State.reset = .next t ∧ t.fault ≠ .none :=
  ⟨{ State.reset with fault := .coordinateRange 0 192 }, rfl, by simp⟩
/-- One witness for each fault's clause. -/
theorem witness_FaultsHaveTheirCauses :
    faultOf (exec (.load []) State.reset) = some (.formatError 0) ∧
    faultOf (exec (.xlate 0 192) State.reset) = some (.coordinateRange 0 192) ∧
    faultOf (exec .frame State.reset) = some .notLoaded := by decide
theorem witness_FaultIsSticky : { State.reset with fault := .notLoaded }.fault ≠ .none := by simp
/-- The host's read of the first pixel index outside RASTER stops the machine. -/
theorem witness_NothingElseStopsTheMachine :
    ∃ s : State, s.Inv ∧ step s = .fault (.outOfSpace .raster 49152) :=
  ⟨framedZero.withMove (.readPixel 49152), framedZero_inv.congr rfl rfl rfl rfl rfl, rfl⟩
/-- A step that writes: FRAME on the loaded block. -/
theorem witness_StepKeepsInvariant :
    ∃ t, (loadedZero.withMove (.operation ⟨.frame, []⟩)).Inv ∧ step (loadedZero.withMove (.operation ⟨.frame, []⟩)) = .next t :=
  ⟨framedZero, loadedZero_inv.congr rfl rfl rfl rfl rfl, test_frame_zeros⟩
/-- LOAD changes BM, FRAME changes RASTER and DONE. -/
theorem witness_WritersOfEachItem : exec (.load zeroSnap) State.reset = .next loadedZero ∧ loadedZero.loaded ≠ State.reset.loaded ∧
    exec .frame loadedZero = .next framedZero ∧ framedZero.done ≠ loadedZero.done :=
  ⟨loadSnapshot_long (Nat.le_of_eq zeroSnap_length.symm), by simp [loadedZero, loadedWith], test_frame_zeros,
    by simp [framedZero, framedWith, loadedZero, loadedWith]⟩
theorem witness_ReadingOperationsFrame : (∀ snap, Instr.xlate 0 0 ≠ .load snap ∧ Instr.xlate 0 0 ≠ .render snap) ∧
    (∀ x y, Instr.xlate 0 0 ≠ .pixel x y) ∧ Instr.xlate 0 0 ≠ .frame ∧
    exec (.xlate 0 0) State.reset = .next { State.reset with result := .bmAddr 0 } :=
  ⟨fun _ => ⟨by simp, by simp⟩, fun _ _ => by simp, by simp, rfl⟩
theorem witness_InputsImmutableUntilReset : ∃ s t : State, s.loaded = true ∧ s.pending.head? ≠ some .reset ∧ step s = .next t :=
  ⟨loadedZero.withMove (.operation ⟨.frame, []⟩), framedZero, rfl, by simp, test_frame_zeros⟩
theorem witness_DoneIsSetOnlyOnCompletion :
    ∃ s t : State, s.Inv ∧ s.done = false ∧ step s = .next t ∧ t.done = true :=
  ⟨loadedZero.withMove (.operation ⟨.frame, []⟩), framedZero, loadedZero_inv.congr rfl rfl rfl rfl rfl, rfl,
    test_frame_zeros, rfl⟩
theorem witness_RenderReachesAnEnd : State.reset.fault = .none ∧ State.reset.loaded = false ∧ State.reset.done = false :=
  ⟨rfl, rfl, rfl⟩
theorem witness_HostReset : (framedZero.withMove .reset).pending = .reset :: [] := rfl
theorem witness_StatusReadNeverFails : (framedZero.withMove .readStatus).pending = .readStatus :: [] := rfl
theorem witness_EarlyRasterReadIsRefused : (loadedZero.withMove .readRaster).pending = .readRaster :: [] ∧
    ¬ ((loadedZero.withMove .readRaster).done = true ∧ (loadedZero.withMove .readRaster).fault = .none) :=
  ⟨rfl, fun h => absurd h.1 (by simp [loadedZero, loadedWith])⟩
/-- The last pixel, and the whole raster. -/
theorem witness_CompletedRasterIsDelivered : (framedZero.withMove (.readPixel 49151)).Inv ∧
    (framedZero.withMove .readRaster).Inv ∧ framedZero.done = true ∧ framedZero.fault = .none ∧
    (framedZero.withMove (.readPixel 49151)).pending = .readPixel 49151 :: [] ∧
    (framedZero.withMove .readRaster).pending = .readRaster :: [] :=
  ⟨framedZero_inv.congr rfl rfl rfl rfl rfl, framedZero_inv.congr rfl rfl rfl rfl rfl, rfl, rfl, rfl, rfl⟩
theorem witness_PixelFormat : [(⟨1, 2, 3⟩ : RGB)][0]? = some ⟨1, 2, 3⟩ := rfl
theorem witness_IdleStepChangesNothing : State.reset.pending = [] := rfl

/-- The last byte of each space. -/
theorem witness_PixelPortsCarryItsParts : loadedZero.Inv ∧ loadedZero.fault = .none ∧ loadedZero.loaded = true ∧
    (255 : Nat) < 256 ∧ (191 : Nat) < 192 := ⟨loadedZero_inv, rfl, rfl, by decide, by decide⟩
/-- RASTER_DATA is 24 bits wide without alpha and 32 with it (10_state.md R22). -/
theorem test_rasterData_width : (rasterDataWord (rasterDataPort false ⟨1, 2, 3⟩)) = ⟨24, 0x010203⟩ ∧
    (rasterDataWord (rasterDataPort true ⟨1, 2, 3⟩)) = ⟨32, 0x010203FF⟩ := by decide

end Sys2Proof.Tests
end

section
/-! PROOFS. What an operation answers where nothing stops it: one equation per operation that gives back a result. -/

namespace Sys2Proof.Machine

variable {s : State} {x y : Nat}

theorem exec_xlate_of_lt (hf : s.fault = .none) (hx : x < 256) (hy : y < 192) :
    exec (.xlate x y) s = .next { s with result := .bmAddr (bmAddrPort x y) } := by
  change execXlate x y s = _
  rw [execXlate, whenAdmitted_of_none hf, whenInRange_of_lt hx hy, give]

theorem exec_cell_of_lt (hf : s.fault = .none) (hx : x < 256) (hy : y < 192) :
    exec (.cell x y) s = .next { s with result := .amAddr (amAddrPort x y) } := by
  change execCell x y s = _
  rw [execCell, whenAdmitted_of_none hf, whenInRange_of_lt hx hy, give]

theorem exec_bmread_of_read {byte : Byte} (hf : s.fault = .none) (hl : s.loaded = true) (hx : x < 256) (hy : y < 192)
    (h : Memory.read s.bm (bmOffset x y) = some byte) :
    exec (.bmread x y) s = .next { s with result := .bmData byte } := by
  have hr : readBm s (bmOffset x y) = .ok byte := readSpace_ok (bmOffset_lt hx hy) h
  change execBmread x y s = _
  rw [execBmread, whenAdmitted_of_none hf, whenLoaded_of_true hl, whenInRange_of_lt hx hy, bmAddrPort_toNat hx hy, hr,
    deliver, give]

theorem exec_atread_of_read {a : Byte} (hf : s.fault = .none) (hl : s.loaded = true) (hx : x < 256) (hy : y < 192)
    (h : Memory.read s.am (amOffset x y) = some a) :
    exec (.atread x y) s = .next { s with result := .amData a } := by
  have hr : readAm s (amOffset x y) = .ok a := readSpace_ok (amOffset_lt hx hy) h
  change execAtread x y s = _
  rw [execAtread, whenAdmitted_of_none hf, whenLoaded_of_true hl, whenInRange_of_lt hx hy, amAddrPort_toNat hx hy, hr,
    deliver, give]

theorem exec_cresolve_of_none (a : Byte) (hf : s.fault = .none) :
    exec (.cresolve a) s = .next { s with result := .colours (resolve palette a).1 (resolve palette a).2 } :=
  whenAdmitted_of_none hf

theorem exec_bitsel_of_none (byte : Byte) (x : Nat) (hf : s.fault = .none) :
    exec (.bitsel byte x) s = .next { s with result := .pixBit (bitOf byte x) } :=
  whenAdmitted_of_none hf

/-- PIXEL writes what its ports carry: the colour on RASTER_DATA at RASTER_ADDR (43_compositor.md R123). -/
theorem exec_pixel_of_ports {ports : PixelPorts} (hf : s.fault = .none) (hl : s.loaded = true) (hx : x < 256)
    (hy : y < 192) (h : composePixel palette s x y = .ok ports) :
    exec (.pixel x y) s = .next { s with
      raster := Memory.write s.raster ports.rasterAddr.toNat ports.rasterData.colour, result := .none } := by
  obtain ⟨a, byte, -, -, rfl⟩ := composePixel_eq_ok.mp h
  change execPixel x y s = .next { s with raster := Memory.write s.raster (rasterAddrPort x y).toNat _, result := .none }
  rw [rasterAddrPort_toNat hx hy]
  exact execPixel_of_colour hf hl hx hy (composePixel_colour hx h)

end Sys2Proof.Machine
end

section
/-! PROOFS. The invariant, along every operation and every step (10_state.md R24). -/

namespace Sys2Proof.Machine

/-- Writing a pixel of a loaded block with the colour of its own index keeps the invariant: the index is in the space,
and the written pixel is as `raster_ok` asks. -/
theorem State.Inv.write_pixel {s : State} {p : Nat} {c : RGB} (r : Result) (hi : s.Inv) (hl : s.loaded = true)
    (hp : p < 49152) (hc : pixelColourAt palette s p = .ok c) :
    ({ s with raster := Memory.write s.raster p c, result := r } : State).Inv where
  bm_wf := hi.bm_wf
  am_wf := hi.am_wf
  raster_wf := Memory.wf_write c hi.raster_wf hp
  unloaded := fun h => absurd (hl.symm.trans h) (by decide)
  bm_full := hi.bm_full
  am_full := hi.am_full
  raster_full := fun hd q hq => by
    rw [Memory.read_write]
    split
    · rfl
    · exact hi.raster_full hd q hq
  raster_ok := fun q d h => by
    refine (pixelColourAt_congr (s := s) rfl rfl q).trans ?_
    rw [Memory.read_write] at h
    split at h
    · next hpq => cases h; exact hpq ▸ hc
    · exact hi.raster_ok q d h

/-- Whatever an operation does keeps the invariant. -/
theorem Effect.keeps_inv {i : Instr} {s t : State} (h : Effect i s t) (hi : s.Inv) : t.Inv := by
  cases h with
  | gives r _ => exact hi.congr rfl rfl rfl rfl rfl
  | raises _ => exact hi.congr rfl rfl rfl rfl rfl
  | loads hl hn =>
    obtain ⟨-, -, hraster, hdone⟩ := hi.unloaded hl
    exact loadedWith_inv hraster hdone hn
  | composes hl hx hy hc => exact hi.write_pixel _ hl (rasterIndex_lt hx hy) hc
  | frames hl hcs => exact framedWith_inv hi hl hcs
  | renders hl _ hn hcs =>
    obtain ⟨-, -, hraster, hdone⟩ := hi.unloaded hl
    exact framedWith_inv (loadedWith_inv hraster hdone hn) rfl hcs

theorem reset_inv : State.reset.Inv where
  bm_wf := Memory.wf_nil _
  am_wf := Memory.wf_nil _
  raster_wf := Memory.wf_nil _
  unloaded := fun _ => ⟨rfl, rfl, rfl, rfl⟩
  bm_full := fun h => absurd h (by decide)
  am_full := fun h => absurd h (by decide)
  raster_full := fun h => absurd h (by decide)
  raster_ok := fun p c h => absurd h (by simp)

theorem step_keeps_inv {s t : State} (hi : s.Inv) (h : step s = .next t) : t.Inv := by
  obtain ⟨-, rfl⟩ | ⟨r, rest, i, -, -, hexec⟩ | ⟨rest, -, rfl⟩ | ⟨m, rest, r, -, -, rfl⟩ := step_cases h
  · exact hi
  · exact (exec_effect hexec).2.keeps_inv (hi.congr rfl rfl rfl rfl rfl)
  · exact reset_inv.congr rfl rfl rfl rfl rfl
  · exact hi.congr rfl rfl rfl rfl rfl

/-- Settles O48: a step is idle, an operation, the host's reset or the host's read, and each keeps the invariant. -/
theorem stepKeepsInvariant : Obligations.StepKeepsInvariant :=
  fun _ _ hi h => step_keeps_inv hi h

/-- Settles O47. -/
theorem resetHasInvariant : Obligations.ResetHasInvariant := reset_inv

/-- Settles O46: each item of the reset state is a value of its definition. -/
theorem resetState : Obligations.ResetState :=
  ⟨reset_loaded, reset_done, reset_fault, Memory.read_nil, Memory.read_nil, Memory.read_nil, reset_result,
    reset_pending⟩

end Sys2Proof.Machine
end

section
/-! PROOFS. Who writes each item of the state (10_state.md R10 to R17), read off what an operation can do. -/

namespace Sys2Proof.Machine

variable {i : Instr} {s t : State}

theorem Effect.inputs_eq_or_loads (h : Effect i s t) :
    (t.bm = s.bm ∧ t.am = s.am ∧ t.loaded = s.loaded) ∨
      (s.loaded = false ∧ t.loaded = true ∧ ∃ snap, i = .load snap ∨ i = .render snap) := by
  cases h with
  | gives | raises | composes | frames => exact .inl ⟨rfl, rfl, rfl⟩
  | loads hl _ => exact .inr ⟨hl, rfl, _, .inl rfl⟩
  | renders hl _ _ _ => exact .inr ⟨hl, rfl, _, .inr rfl⟩

theorem Effect.raster_eq_or_draws (h : Effect i s t) :
    t.raster = s.raster ∨ (∃ x y, i = .pixel x y) ∨ i = .frame ∨ ∃ snap, i = .render snap := by
  cases h with
  | gives | raises | loads => exact .inl rfl
  | composes => exact .inr (.inl ⟨_, _, rfl⟩)
  | frames => exact .inr (.inr (.inl rfl))
  | renders => exact .inr (.inr (.inr ⟨_, rfl⟩))

theorem Effect.done_eq_or_frames (h : Effect i s t) :
    t.done = s.done ∨ (t.done = true ∧ t.fault = s.fault ∧ (i = .frame ∨ ∃ snap, i = .render snap)) := by
  cases h with
  | gives | raises | loads | composes => exact .inl rfl
  | frames => exact .inr ⟨rfl, rfl, .inl rfl⟩
  | renders => exact .inr ⟨rfl, rfl, .inr ⟨_, rfl⟩⟩

theorem Effect.pending_eq (h : Effect i s t) : t.pending = s.pending := by
  cases h <;> rfl

/-- Settles O49: each clause is one item's frame under `Effect`; the operation was admitted, so no fault stood when
DONE was set. -/
theorem writersOfEachItem : Obligations.WritersOfEachItem := by
  intro i s t h
  obtain ⟨hf, he⟩ := exec_effect h
  refine ⟨fun hne => ?_, he.raster_eq_or_draws.resolve_left, fun hne => ?_, he.pending_eq⟩
  · refine he.inputs_eq_or_loads.resolve_left ?_
    rintro ⟨hbm, ham, hl⟩
    exact hne.elim (· hbm) (·.elim (· ham) (· hl))
  · obtain ⟨hd, hfault, hi⟩ := he.done_eq_or_frames.resolve_left hne
    exact ⟨hd, hfault.trans hf, hi⟩

end Sys2Proof.Machine
end

section
/-! PROOFS. The ports of one pixel (10_state.md R22), and the default palette (10_state.md R14). -/

namespace Sys2Proof.Machine

/-- The word of RASTER_DATA is 24 bits wide, or 32 with A = 255 (10_state.md R22, 20_memory.md R37). -/
theorem rasterDataWord_pixelPorts (pal : Palette) (x y : Nat) (a byte : Byte) :
    rasterDataWord (pixelPorts pal x y a byte).rasterData =
      if Config.hasAlpha then ⟨32, rgbWord (pixelPorts pal x y a byte).rasterData.colour ++ 255#8⟩
      else ⟨24, rgbWord (pixelPorts pal x y a byte).rasterData.colour⟩ :=
  rasterDataWord_port _ _

/-- Settles O60: the invariant gives both bytes, and each operation answers with what `pixelPorts` carries. -/
theorem pixelPortsCarryItsParts : Obligations.PixelPortsCarryItsParts := by
  intro x y s hi hf hl hx hy
  obtain ⟨a, byte, ha, hb, hports⟩ := composePixel_of_inv palette hi hl hx hy
  have hbm : (bmAddrPort x y).toNat = bmOffset x y := bmAddrPort_toNat hx hy
  have ham : (amAddrPort x y).toNat = amOffset x y := amAddrPort_toNat hx hy
  have hraster : (rasterAddrPort x y).toNat = y * 256 + x := (rasterAddrPort_toNat hx hy).trans (rasterIndex_eq x y)
  exact ⟨_, hports,
    hbm, exec_xlate_of_lt hf hx hy, (congrArg _ hbm).trans hb, exec_bmread_of_read hf hl hx hy hb,
    ham, exec_cell_of_lt hf hx hy, (congrArg _ ham).trans ha, exec_atread_of_read hf hl hx hy ha,
    exec_cresolve_of_none a hf, exec_bitsel_of_none byte x hf,
    hraster, rfl, rasterDataWord_pixelPorts palette x y a byte, rfl, exec_pixel_of_ports hf hl hx hy hports⟩

/-- Settles O24: R14's formula, evaluated at each of the sixteen entries. -/
theorem defaultPaletteTable : Obligations.DefaultPaletteTable :=
  ⟨⟨by decide, by decide, by decide⟩, by decide, by decide⟩

end Sys2Proof.Machine
end

section
/-! PROOFS. Pixel steps in any order and FRAME as a schedule of them (20_memory.md R42 to R44, 43_compositor.md R126). -/

namespace Sys2Proof.Machine

/-- What running the pixel steps `ws` from `s` leaves: the invariant holds, only RASTER and the result are written, and
RASTER holds exactly the pixels it held and those of `ws`. Their colours need no clause: `State.Inv.raster_ok` fixes
them. -/
structure PaintedBy (ws : List WorkItem) (s t : State) : Prop where
  inv    : t.Inv
  frame  : t = { s with raster := t.raster, result := t.result }
  result : t.result = if ws = [] then s.result else .none
  held   : ∀ p, (Memory.read t.raster p).isSome = true ↔
    (∃ w ∈ ws, rasterIndex w.x w.y = p) ∨ (Memory.read s.raster p).isSome = true

variable {s t u : State} {ws ws' : List WorkItem}

theorem PaintedBy.bm_eq (h : PaintedBy ws s t) : t.bm = s.bm := by rw [h.frame]

theorem PaintedBy.am_eq (h : PaintedBy ws s t) : t.am = s.am := by rw [h.frame]

theorem PaintedBy.nil (hi : s.Inv) : PaintedBy [] s s where
  inv := hi
  frame := rfl
  result := rfl
  held p := by simp

/-- One pixel step before a run: the run starts from the state that holds one pixel more. -/
theorem PaintedBy.cons {w : WorkItem} {c : RGB}
    (h : PaintedBy ws { s with raster := Memory.write s.raster (rasterIndex w.x w.y) c, result := .none } t) :
    PaintedBy (w :: ws) s t where
  inv := h.inv
  frame := h.frame
  result := h.result.trans (by simp)
  held p := by
    rw [h.held p, Memory.read_write]
    by_cases hp : rasterIndex w.x w.y = p <;> simp [hp]

/-- In-range pixel steps on a loaded block all complete. -/
theorem runWork_paints (hi : s.Inv) (hf : s.fault = .none) (hl : s.loaded = true)
    (hr : ∀ w ∈ ws, w.x < 256 ∧ w.y < 192) : ∃ t, runWork ws s = .next t ∧ PaintedBy ws s t := by
  induction ws generalizing s with
  | nil => exact ⟨s, rfl, .nil hi⟩
  | cons w ws ih =>
    obtain ⟨⟨hx, hy⟩, hr⟩ := List.forall_mem_cons.mp hr
    have hp : rasterIndex w.x w.y < 49152 := rasterIndex_lt hx hy
    obtain ⟨c, hc⟩ := pixelColourAt_of_inv palette hi hl hp
    obtain ⟨t, ht, hpaint⟩ := ih (hi.write_pixel .none hl hp hc) hf hl hr
    exact ⟨t, by rw [runWork, execPixel_of_colour hf hl hx hy hc]; exact ht, hpaint.cons⟩

/-- BM, AM and the set of pixels held determine RASTER: under the invariant every pixel has the colour of its own
coordinate. -/
theorem State.Inv.raster_eq_of_held (hs : s.Inv) (ht : t.Inv) (hb : t.bm = s.bm) (ha : t.am = s.am)
    (h : ∀ p, (Memory.read t.raster p).isSome = true ↔ (Memory.read s.raster p).isSome = true) :
    t.raster = s.raster := by
  refine Memory.wf_ext ht.raster_wf hs.raster_wf fun p => ?_
  cases hp : Memory.read t.raster p with
  | none =>
    have hnot : ¬ (Memory.read s.raster p).isSome = true := fun hq => by simpa [hp] using (h p).mpr hq
    exact (Option.not_isSome_iff_eq_none.mp hnot).symm
  | some c =>
    obtain ⟨d, hd⟩ := Option.isSome_iff_exists.mp ((h p).mp (by simp [hp]))
    have hcolour : Except.ok c = Except.ok d :=
      (ht.raster_ok p c hp).symm.trans ((pixelColourAt_congr hb ha p).trans (hs.raster_ok p d hd))
    rw [hd, Except.ok.inj hcolour]

/-- Two runs of the same pixel steps, in whatever order, leave one state. -/
theorem PaintedBy.eq_of_perm (ht : PaintedBy ws s t) (hu : PaintedBy ws' s u) (hperm : ws.Perm ws') : t = u := by
  have hb : t.bm = u.bm := ht.bm_eq.trans hu.bm_eq.symm
  have ha : t.am = u.am := ht.am_eq.trans hu.am_eq.symm
  have hraster : t.raster = u.raster := hu.inv.raster_eq_of_held ht.inv hb ha fun p => by
    simp only [ht.held, hu.held, hperm.mem_iff]
  have hnil : ws = [] ↔ ws' = [] := ⟨fun h => (h ▸ hperm).nil_eq.symm, fun h => (h ▸ hperm).eq_nil⟩
  have hresult : t.result = u.result := by simp only [ht.result, hu.result, hnil]
  rw [ht.frame, hu.frame, hraster, hresult]

/-- Settles O32: both orders complete, and they are permutations of each other. -/
theorem pixelStepsCommute : Obligations.PixelStepsCommute := by
  intro v w s hi hf hl hvx hvy hwx hwy
  obtain ⟨t, ht, htp⟩ := runWork_paints (ws := [v, w]) hi hf hl (by simp [hvx, hvy, hwx, hwy])
  obtain ⟨u, hu, hup⟩ := runWork_paints (ws := [w, v]) hi hf hl (by simp [hvx, hvy, hwx, hwy])
  exact ⟨t, ht, by rw [hu, htp.eq_of_perm hup (.swap w v [])]⟩

theorem Schedule.valid.in_range {workers : Nat} (h : Schedule.valid workers ws) {w : WorkItem} (hw : w ∈ ws) :
    w.x < 256 ∧ w.y < 192 := by
  have hmem := h.2.mem_iff.mp (List.mem_map_of_mem hw)
  obtain ⟨p, hp, hxy⟩ := List.mem_map.mp hmem
  obtain ⟨hx, hy⟩ := Prod.mk.inj hxy
  exact ⟨hx ▸ rasterX_lt p, hy ▸ rasterY_lt (List.mem_range.mp hp)⟩

theorem Schedule.valid.covers {workers p : Nat} (h : Schedule.valid workers ws) (hp : p < 49152) :
    ∃ w ∈ ws, rasterIndex w.x w.y = p := by
  have hmem := h.2.mem_iff.mpr (List.mem_map_of_mem (List.mem_range.mpr hp))
  obtain ⟨w, hw, hxy⟩ := List.mem_map.mp hmem
  obtain ⟨hx, hy⟩ := Prod.mk.inj hxy
  exact ⟨w, hw, by rw [hx, hy, rasterIndex_coords]⟩

theorem State.Inv.lt_of_held (hi : s.Inv) {p : Nat} (h : (Memory.read s.raster p).isSome = true) : p < 49152 := by
  obtain ⟨c, hc⟩ := Option.isSome_iff_exists.mp h
  exact Memory.read_lt hi.raster_wf hc

/-- When DONE is set, RASTER holds exactly the pixels of its space. -/
theorem State.Inv.held_iff_lt (hi : s.Inv) (hd : s.done = true) (p : Nat) :
    (Memory.read s.raster p).isSome = true ↔ p < 49152 :=
  ⟨hi.lt_of_held, hi.raster_full hd p⟩

/-- Pixel steps that reach every coordinate hold exactly the pixels of the space. -/
theorem PaintedBy.held_iff_lt (h : PaintedBy ws s t) (hcover : ∀ p, p < 49152 → ∃ w ∈ ws, rasterIndex w.x w.y = p)
    (p : Nat) : (Memory.read t.raster p).isSome = true ↔ p < 49152 :=
  ⟨h.inv.lt_of_held, fun hp => (h.held p).mpr (.inl (hcover p hp))⟩

/-- Settles O34: the pixel steps and FRAME both hold every pixel of the space and nothing else, so their rasters are
equal. -/
theorem frameEqualsEverySchedule : Obligations.FrameEqualsEverySchedule := by
  intro s workers ws hi hf hl hv
  obtain ⟨t, ht, hp⟩ := runWork_paints hi hf hl fun w hw => hv.in_range hw
  obtain ⟨cs, hcs⟩ := frameColours_of_inv palette hi hl
  have hframed : (framedWith cs s).Inv := framedWith_inv hi hl hcs
  have hraster : t.raster = (framedWith cs s).raster :=
    hframed.raster_eq_of_held hp.inv hp.bm_eq hp.am_eq fun p =>
      (hp.held_iff_lt (fun _ => hv.covers) p).trans (hframed.held_iff_lt rfl p).symm
  have hexec : exec .frame s = .next (framedWith cs s) :=
    (whenAdmitted_of_none hf).trans (composeFrame_of_colours hl hcs)
  rw [hexec, frameBySchedule, ht, hp.frame, hraster]
  rfl

end Sys2Proof.Machine
end

section
/-! PROOFS. What the reading operations and the steps of a loaded block leave unchanged (20_memory.md R41, R46). -/

namespace Sys2Proof.Machine

variable {i : Instr} {s t : State}

theorem reading_of_ne (hsnap : ∀ snap, i ≠ .load snap ∧ i ≠ .render snap) (hpixel : ∀ x y, i ≠ .pixel x y)
    (hframe : i ≠ .frame) : Reading i := by
  cases i with
  | load snap => exact (hsnap snap).1 rfl
  | render snap => exact (hsnap snap).2 rfl
  | pixel x y => exact hpixel x y rfl
  | frame => exact hframe rfl
  | xlate | bmread | attrdec | pallut | cresolve | cell | atread | bitsel => trivial

/-- A reading operation gives back a result and keeps FAULT, or raises and gives back nothing. -/
theorem Effect.reading_frame (h : Effect i s t) (hr : Reading i) :
    t = { s with fault := t.fault, result := t.result } ∧ (t.fault = s.fault ∨ t.result = .none) := by
  cases h with
  | gives => exact ⟨rfl, .inl rfl⟩
  | raises => exact ⟨rfl, .inr rfl⟩
  | loads | composes | frames | renders => exact hr.elim

/-- Settles O50: the operation was admitted, so a fault after it is one that it raised. -/
theorem readingOperationsFrame : Obligations.ReadingOperationsFrame := by
  intro i s t hsnap hpixel hframe h
  obtain ⟨hf, he⟩ := exec_effect h
  obtain ⟨heq, hres⟩ := he.reading_frame (reading_of_ne hsnap hpixel hframe)
  have hbm : t.bm = s.bm := by rw [heq]
  have ham : t.am = s.am := by rw [heq]
  have hraster : t.raster = s.raster := by rw [heq]
  exact ⟨fun a => by rw [hbm], fun a => by rw [ham], fun p => by rw [hraster], heq,
    fun hne => hres.resolve_left fun hkeep => hne (hkeep.trans hf)⟩

/-- Only LOAD and RENDER write BM and AM, and neither has a step when LOADED = 1. -/
theorem Effect.inputs_eq_of_loaded (h : Effect i s t) (hl : s.loaded = true) :
    t.bm = s.bm ∧ t.am = s.am ∧ t.loaded = true := by
  obtain ⟨hbm, ham, hloaded⟩ | ⟨hunloaded, -⟩ := h.inputs_eq_or_loads
  · exact ⟨hbm, ham, hloaded.trans hl⟩
  · exact absurd (hl.symm.trans hunloaded) (by decide)

/-- Settles O51: of the things a step can do, only an operation and the host's reset could write the inputs. -/
theorem inputsImmutableUntilReset : Obligations.InputsImmutableUntilReset := by
  intro s t hl hreset h
  obtain ⟨-, rfl⟩ | ⟨r, rest, i, -, -, hexec⟩ | ⟨rest, hpending, -⟩ | ⟨m, rest, r, -, -, rfl⟩ := step_cases h
  · exact ⟨rfl, rfl, hl⟩
  · exact (exec_effect hexec).2.inputs_eq_of_loaded hl
  · exact absurd (congrArg List.head? hpending) hreset
  · exact ⟨rfl, rfl, hl⟩

end Sys2Proof.Machine
end

section
/-! PROOFS. The addresses on the ports and the format of a pixel (20_memory.md R37, R47; 10_state.md R22). -/

namespace Sys2Proof.Machine

/-- Settles O5: each address is below its space's size, and the size is within its port's width. -/
theorem portsCarryLegalAddressesWhole : Obligations.PortsCarryLegalAddressesWhole := by
  intro x y hx hy
  have hcol : x / 8 < 32 := by omega
  have hrow : y / 8 < 24 := by omega
  exact ⟨memRow_lt hy, hcol, hrow, hcol,
    bmAddrPort_toNat hx hy, bmOffset_lt hx hy,
    amAddrPort_toNat hx hy, amOffset_lt hx hy,
    rasterAddrPort_toNat hx hy, rasterIndex_lt hx hy⟩

theorem rgbWord_fields (c : RGB) :
    (rgbWord c).extractLsb' 16 8 = c.red ∧ (rgbWord c).extractLsb' 8 8 = c.green ∧
      (rgbWord c).extractLsb' 0 8 = c.blue := by
  refine ⟨?_, ?_, BitVec.extractLsb'_append_eq_right⟩
  · rw [rgbWord, BitVec.extractLsb'_append_eq_of_le (by decide)]
    exact BitVec.extractLsb'_append_eq_left
  · rw [rgbWord, BitVec.extractLsb'_append_eq_of_le (by decide)]
    exact BitVec.extractLsb'_append_eq_right

theorem rgbaWord_fields (c : RGB) :
    (rgbaWord c).extractLsb' 8 24 = rgbWord c ∧ (rgbaWord c).extractLsb' 0 8 = 255#8 :=
  ⟨BitVec.extractLsb'_append_eq_left, BitVec.extractLsb'_append_eq_right⟩

/-- Where every pixel has `n` bytes, byte `j` of pixel `p` stands at place `n * p + j` of the byte sequence. -/
theorem rasterBytes_getElem? {alpha : Bool} {n j p : Nat} {cs : List RGB} {c : RGB}
    (hn : ∀ d, (pixelBytes alpha d).length = n) (hj : j < n) (h : cs[p]? = some c) :
    (rasterBytes alpha cs)[n * p + j]? = (pixelBytes alpha c)[j]? := by
  induction cs generalizing p with
  | nil => simp at h
  | cons d cs ih =>
    rw [rasterBytes]
    cases p with
    | zero =>
      obtain rfl : d = c := by simpa using h
      rw [Nat.mul_zero, Nat.zero_add, List.getElem?_append_left (by rwa [hn])]
    | succ p =>
      have hplace : n * (p + 1) + j = n + (n * p + j) := by ring
      rw [hplace, List.getElem?_append_right (by rw [hn]; omega), hn, Nat.add_sub_cancel_left]
      exact ih (by simpa using h)

/-- Settles O58: the words are their fields appended, and pixels of one size stand one after another. -/
theorem pixelFormat : Obligations.PixelFormat := by
  refine ⟨fun c => ?_, fun cs p c h => ?_⟩
  · obtain ⟨hred, hgreen, hblue⟩ := rgbWord_fields c
    exact ⟨hred, hgreen, hblue, rgbaWord_fields c⟩
  · have hrgb {j : Nat} (hj : j < 3) : (rasterBytes false cs)[3 * p + j]? = _ := rasterBytes_getElem? (fun _ => rfl) hj h
    have hrgba {j : Nat} (hj : j < 4) : (rasterBytes true cs)[4 * p + j]? = _ := rasterBytes_getElem? (fun _ => rfl) hj h
    exact ⟨hrgb (j := 0) (by decide), hrgb (j := 1) (by decide), hrgb (j := 2) (by decide),
      hrgba (j := 0) (by decide), hrgba (j := 1) (by decide), hrgba (j := 2) (by decide), hrgba (j := 3) (by decide)⟩

end Sys2Proof.Machine
end

section
/-! PROOFS. A request and its instruction: for each form of operand, the bytes that decode are exactly the bytes that
`encode` writes (30_encoding.md R50 to R58, R66). -/

namespace Sys2Proof

theorem coordFits_iff {x y : Nat} : coordFits x y = true ↔ x < 256 ∧ y < 256 := by simp [coordFits]

@[simp] theorem byteOf_toNat (b : Byte) : byteOf b.toNat = b := (BitVec.ofNat_toNat 8 b).trans (BitVec.setWidth_eq b)

theorem toNat_byteOf {n : Nat} (h : n < 256) : (byteOf n).toNat = n := Nat.mod_eq_of_lt h

/-- One bit of a word, as a field one bit wide. -/
theorem ofBool_getLsbD {w : Nat} (v : BitVec w) (i : Nat) : BitVec.ofBool (v.getLsbD i) = v.extractLsb' i 1 := by
  ext j hj
  obtain rfl : j = 0 := Nat.lt_one_iff.mp hj
  simp

theorem palAddrByte_unused (index : ColourIndex) (bright : Bool) : (palAddrByte index bright).extractLsb' 4 4 = 0 :=
  BitVec.extractLsb'_append_eq_left

theorem palAddrByte_index (index : ColourIndex) (bright : Bool) : (palAddrByte index bright).extractLsb' 0 3 = index :=
  (BitVec.extractLsb'_append_eq_of_add_le (by decide)).trans BitVec.extractLsb'_append_eq_right

theorem palAddrByte_bright (index : ColourIndex) (bright : Bool) : (palAddrByte index bright).getLsbD 3 = bright := by
  rw [palAddrByte, BitVec.getLsbD_append, BitVec.getLsbD_append]
  simp

/-- A byte whose bits 7:4 are zero is the PALADDR byte of its own fields (30_encoding.md R56): the three fields stand
side by side and make up the whole byte. -/
theorem palAddrByte_of_fields {b : Byte} (h : b.extractLsb' 4 4 = 0) :
    palAddrByte (b.extractLsb' 0 3) (b.getLsbD 3) = b := by
  rw [palAddrByte, ofBool_getLsbD, ← h, BitVec.extractLsb'_append_extractLsb'_eq_extractLsb' (by rfl),
    BitVec.extractLsb'_append_extractLsb'_eq_extractLsb' (by rfl)]
  exact BitVec.extractLsb'_eq_self

section Operands

variable {g : PortGroup} {bs : List Byte} {i : Instr}

theorem decodeCoord_eq_ok {mk : Nat → Nat → Instr} :
    decodeCoord g mk bs = .ok i ↔ ∃ x y, coordFits x y = true ∧ mk x y = i ∧ encodeCoord x y = bs := by
  constructor
  · intro h
    match bs, h with
    | [x, y], h =>
      exact ⟨x.toNat, y.toNat, coordFits_iff.mpr ⟨x.isLt, y.isLt⟩, Except.ok.inj h, by simp [encodeCoord]⟩
  · rintro ⟨x, y, hfits, rfl, rfl⟩
    obtain ⟨hx, hy⟩ := coordFits_iff.mp hfits
    simp [decodeCoord, encodeCoord, toNat_byteOf hx, toNat_byteOf hy]

theorem decodeAttr_eq_ok {mk : Byte → Instr} : decodeAttr g mk bs = .ok i ↔ ∃ a, mk a = i ∧ [a] = bs := by
  constructor
  · intro h
    match bs, h with
    | [a], h => exact ⟨a, Except.ok.inj h, rfl⟩
  · rintro ⟨a, rfl, rfl⟩
    rfl

theorem decodePallut_eq_ok :
    decodePallut bs = .ok i ↔ ∃ index bright, .pallut index bright = i ∧ [palAddrByte index bright] = bs := by
  constructor
  · intro h
    match bs, h with
    | [b], h =>
      rw [decodePallut] at h
      split at h
      · next hunused => exact ⟨_, _, Except.ok.inj h, by rw [palAddrByte_of_fields hunused]⟩
      · cases h
  · rintro ⟨index, bright, rfl, rfl⟩
    rw [decodePallut, if_pos (palAddrByte_unused index bright), palAddrByte_index, palAddrByte_bright]

theorem decodeBitsel_eq_ok :
    decodeBitsel bs = .ok i ↔ ∃ byte x, x < 256 ∧ .bitsel byte x = i ∧ [byte, byteOf x] = bs := by
  constructor
  · intro h
    match bs, h with
    | [byte, x], h => exact ⟨byte, x.toNat, x.isLt, Except.ok.inj h, by simp⟩
  · rintro ⟨byte, x, hx, rfl, rfl⟩
    rw [decodeBitsel, toNat_byteOf hx]

theorem decodeFrame_eq_ok : decodeFrame bs = .ok i ↔ .frame = i ∧ [] = bs := by
  constructor
  · intro h
    match bs, h with
    | [], h => exact ⟨Except.ok.inj h, rfl⟩
  · rintro ⟨rfl, rfl⟩
    rfl

end Operands

/-- Settles O1: a snapshot and an attribute byte stand in the request as they are; a coordinate, a column and a PALADDR
are written as bytes and read back. -/
theorem decodeInvertsEncode : Obligations.DecodeInvertsEncode := by
  intro i hwf
  cases i with
  | load | render | attrdec | cresolve | frame => rfl
  | xlate x y | bmread x y | cell x y | atread x y | pixel x y =>
    rw [encode, decode]
    exact decodeCoord_eq_ok.mpr ⟨x, y, hwf, rfl, rfl⟩
  | pallut index bright => exact decodePallut_eq_ok.mpr ⟨index, bright, rfl, rfl⟩
  | bitsel byte x => exact decodeBitsel_eq_ok.mpr ⟨byte, x, of_decide_eq_true hwf, rfl, rfl⟩

/-- Settles O2: each port group takes one of the forms above. -/
theorem encodeInvertsDecode : Obligations.EncodeInvertsDecode := by
  rintro ⟨g, bs⟩ i h
  cases g with
  | load | render => cases h; exact ⟨rfl, rfl⟩
  | xlate | bmread | cell | atread | pixel =>
    obtain ⟨x, y, hfits, rfl, rfl⟩ := decodeCoord_eq_ok.mp h
    exact ⟨hfits, rfl⟩
  | attrdec | cresolve =>
    obtain ⟨a, rfl, rfl⟩ := decodeAttr_eq_ok.mp h
    exact ⟨rfl, rfl⟩
  | pallut =>
    obtain ⟨index, bright, rfl, rfl⟩ := decodePallut_eq_ok.mp h
    exact ⟨rfl, rfl⟩
  | bitsel =>
    obtain ⟨byte, x, hx, rfl, rfl⟩ := decodeBitsel_eq_ok.mp h
    exact ⟨decide_eq_true hx, rfl⟩
  | frame =>
    obtain ⟨rfl, rfl⟩ := decodeFrame_eq_ok.mp h
    exact ⟨rfl, rfl⟩

/-- Settles O6: the bytes written out are those that `encode` gives the seven operations. -/
theorem writtenOutRequestsDecode : Obligations.WrittenOutRequestsDecode :=
  have decodes {i : Instr} (hwf : i.wf = true) : decode (encode i) = .ok i := decodeInvertsEncode i hwf
  ⟨decodes (i := .xlate 0 120) rfl, decodes (i := .pixel 255 191) rfl, decodes (i := .cresolve 0x50) rfl,
    decodes (i := .pallut 2 true) rfl, decodes (i := .bitsel 0x80 248) rfl, decodes (i := .load [1, 2]) rfl,
    decodes (i := .frame) rfl⟩

theorem decodeTableWord_eq_some {nbits w : Nat} {i : Instr} :
    decodeTableWord nbits w = some i ↔ decode (tableRequest nbits w) = .ok i := by
  unfold decodeTableWord
  cases decode (tableRequest nbits w) <;> simp

end Sys2Proof
end

section
/-! PROOFS. The COORD word and the three addresses as bit slices of the coordinate (30_encoding.md R51, R60). -/

namespace Sys2Proof.Machine

/-- A field of a word, as arithmetic. -/
theorem toNat_extractLsb'_eq {w : Nat} (v : BitVec w) (start len : Nat) :
    (v.extractLsb' start len).toNat = v.toNat / 2 ^ start % 2 ^ len := by
  rw [BitVec.extractLsb'_toNat, Nat.shiftRight_eq_div_pow]

/-- Two words side by side, as arithmetic. -/
theorem toNat_append_eq {m n : Nat} (hi : BitVec m) (lo : BitVec n) :
    (hi ++ lo).toNat = hi.toNat * 2 ^ n + lo.toNat := by
  rw [BitVec.toNat_append, ← Nat.shiftLeft_add_eq_or_of_lt lo.isLt, Nat.shiftLeft_eq]

variable (x y : Byte)

theorem coordWord_toNat : (coordWord x y).toNat = y.toNat * 256 + x.toNat := toNat_append_eq y x

/-- A field in the high byte of COORD is a field of y. -/
theorem coordWord_yField {start : Nat} (len : Nat) (h : 8 ≤ start) :
    ((coordWord x y).extractLsb' start len).toNat = y.toNat / 2 ^ (start - 8) % 2 ^ len := by
  rw [coordWord, BitVec.extractLsb'_append_eq_of_le h, toNat_extractLsb'_eq]

/-- A field in the low byte of COORD is a field of x. -/
theorem coordWord_xField {start len : Nat} (h : start + len ≤ 8) :
    ((coordWord x y).extractLsb' start len).toNat = x.toNat / 2 ^ start % 2 ^ len := by
  rw [coordWord, BitVec.extractLsb'_append_eq_of_add_le h, toNat_extractLsb'_eq]

/-- Settles O3: every field of COORD is a field of x or of y; the rest is arithmetic below 256. -/
theorem coordWordFields : Obligations.CoordWordFields := by
  intro x y
  have hx : x.toNat < 256 := x.isLt
  have hy : y.toNat < 256 := y.isLt
  have hword : (coordWord x y).toNat = y.toNat * 256 + x.toNat := coordWord_toNat x y
  have hblock : ((coordWord x y).extractLsb' 14 2).toNat = y.toNat / 64 := by
    rw [coordWord_yField x y 2 (by decide)]; omega
  have hcharIndex : ((coordWord x y).extractLsb' 11 3).toNat = y.toNat % 64 / 8 := by
    rw [coordWord_yField x y 3 (by decide)]; omega
  have hcharRow : ((coordWord x y).extractLsb' 8 3).toNat = y.toNat % 64 % 8 := by
    rw [coordWord_yField x y 3 (by decide)]; omega
  have hmemCol : ((coordWord x y).extractLsb' 3 5).toNat = x.toNat / 8 := by
    rw [coordWord_xField x y (by decide)]; omega
  have hpixel : ((coordWord x y).extractLsb' 0 3).toNat = x.toNat % 8 := by
    rw [coordWord_xField x y (by decide)]; omega
  have hblockOffset : ((coordWord x y).extractLsb' 8 6).toNat = y.toNat % 64 := by
    rw [coordWord_yField x y 6 (by decide)]; omega
  have hcellY : ((coordWord x y).extractLsb' 11 5).toNat = y.toNat / 8 := by
    rw [coordWord_yField x y 5 (by decide)]; omega
  exact ⟨hword, hword.trans (rasterIndex_eq _ _).symm, hblock, hcharIndex, hcharRow, hmemCol, hpixel,
    BitVec.extractLsb'_append_eq_left, BitVec.extractLsb'_append_eq_right, hblockOffset, hcellY,
    by rw [hblock]; omega⟩

/-- Settles O4: no port truncates a legal address, so each is compared with its slices as a number. -/
theorem addressesAreBitSlices : Obligations.AddressesAreBitSlices := by
  intro x y hy
  have hx : x.toNat < 256 := x.isLt
  refine ⟨BitVec.eq_of_toNat_eq ?_, BitVec.eq_of_toNat_eq ?_, BitVec.eq_of_toNat_eq ?_⟩
  · rw [bmAddrPort_toNat hx hy, bmOffset_eq]
    simp only [toNat_append_eq, toNat_extractLsb'_eq]
    omega
  · rw [amAddrPort_toNat hx hy, amOffset_eq]
    simp only [toNat_append_eq, toNat_extractLsb'_eq]
    omega
  · rw [rasterAddrPort_toNat hx hy, rasterIndex_eq]
    exact (coordWord_toNat x y).symm

end Sys2Proof.Machine
end

section
/-! PROOFS. The step that serves a request (30_encoding.md R50; log entry 1). -/

namespace Sys2Proof.Machine

theorem step_of_operation {s : State} {r : Request} {rest : List HostMove} (h : s.pending = .operation r :: rest) :
    step s = serveOperation r { s with pending := rest } := by
  rw [step, serveNext, h]
  rfl

theorem serveOperation_of_ok {r : Request} {i : Instr} (s : State) (h : decode r = .ok i) :
    serveOperation r s = exec i s := by
  rw [serveOperation, h]

theorem serveOperation_of_error {r : Request} {e : DecodeError} (s : State) (h : decode r = .error e) :
    serveOperation r s = .refused (.undecodable e) := by
  rw [serveOperation, h]

/-- Settles O7. -/
theorem stepRunsDecodedInstruction : Obligations.StepRunsDecodedInstruction :=
  fun _ _ _ _ hpending hdecode => (step_of_operation hpending).trans (serveOperation_of_ok _ hdecode)

/-- Settles O8. -/
theorem undecodableRequestIsRefused : Obligations.UndecodableRequestIsRefused :=
  fun _ _ _ _ hpending hdecode => (step_of_operation hpending).trans (serveOperation_of_error _ hdecode)

/-- Settles O9: the request of the word is the oldest move, and taking it off gives the state back. -/
theorem tableWordRunsAtNextStep : Obligations.TableWordRunsAtNextStep :=
  fun s _ _ i h => stepRunsDecodedInstruction _ _ s.pending i (withMove_pending s _) (decodeTableWord_eq_some.mp h)

end Sys2Proof.Machine
end

section
/-! PROOFS. LOAD: the length check and the copy of the two regions (40_loader.md R70 to R74). -/

namespace Sys2Proof.Machine

variable {snap snap' : List Byte} {s : State}

theorem exec_load_of_unloaded (hf : s.fault = .none) (hl : s.loaded = false) :
    exec (.load snap) s = loadSnapshot snap s := by
  change execLoad snap s = _
  rw [execLoad, whenAdmitted_of_none hf, whenNotLoaded_of_false hl]

theorem exec_load_short (hf : s.fault = .none) (hl : s.loaded = false) (hn : snap.length < 6939) :
    exec (.load snap) s = .next { s with fault := .formatError snap.length, result := .none } :=
  (exec_load_of_unloaded hf hl).trans (loadSnapshot_short hn)

theorem exec_load_long (hf : s.fault = .none) (hl : s.loaded = false) (hn : 6939 ≤ snap.length) :
    exec (.load snap) s = .next (loadedWith snap s) :=
  (exec_load_of_unloaded hf hl).trans (loadSnapshot_long hn)

/-- BM after the copy, at every address: R72's byte inside the space, nothing outside it. -/
theorem read_loadedWith_bm (snap : List Byte) (s : State) (i : Nat) :
    Memory.read (loadedWith snap s).bm i = if i < 6144 then snap[27 + i]? else none := by
  simp [loadedWith, snapBitmap, List.getElem?_take]

/-- AM after the copy, at every address: R72's byte inside the space, nothing outside it. -/
theorem read_loadedWith_am (snap : List Byte) (s : State) (j : Nat) :
    Memory.read (loadedWith snap s).am j = if j < 768 then snap[6171 + j]? else none := by
  simp [loadedWith, snapAttributes, List.getElem?_take]

theorem loadedWith_copies_bm (s : State) (hn : 6939 ≤ snap.length) {i : Nat} (hi : i < 6144) :
    ∃ b, snap[27 + i]? = some b ∧ Memory.read (loadedWith snap s).bm i = some b := by
  have hb := List.getElem?_eq_getElem (l := snap) (i := 27 + i) (by omega)
  exact ⟨_, hb, by rw [read_loadedWith_bm, if_pos hi, hb]⟩

theorem loadedWith_copies_am (s : State) (hn : 6939 ≤ snap.length) {j : Nat} (hj : j < 768) :
    ∃ b, snap[6171 + j]? = some b ∧ Memory.read (loadedWith snap s).am j = some b := by
  have hb := List.getElem?_eq_getElem (l := snap) (i := 6171 + j) (by omega)
  exact ⟨_, hb, by rw [read_loadedWith_am, if_pos hj, hb]⟩

/-- Settles O10: what reads as R72 asks is `loadedWith`, which writes no other item of the state. -/
theorem loadCopiesBothRegions : Obligations.LoadCopiesBothRegions := by
  intro snap s hf hl
  refine ⟨fun hn => ⟨loadedWith snap s, exec_load_long hf hl hn, ?_⟩, exec_load_short hf hl⟩
  exact ⟨fun _ => loadedWith_copies_bm s hn,
    fun i hi => (read_loadedWith_bm snap s i).trans (if_neg (Nat.not_lt.mpr hi)),
    fun _ => loadedWith_copies_am s hn,
    fun j hj => (read_loadedWith_am snap s j).trans (if_neg (Nat.not_lt.mpr hj)),
    rfl, rfl, hf, fun _ => rfl, rfl, rfl⟩

/-- Settles O11: on each side of the one length check, the state that LOAD answers. -/
theorem loadChecksOnlyTheLength : Obligations.LoadChecksOnlyTheLength := by
  intro snap s hf hl
  by_cases hn : snap.length < 6939
  · refine ⟨_, exec_load_short hf hl hn, (if_pos hn).symm, ?_, fun _ => ⟨rfl, rfl⟩⟩
    simp [hl, hn]
  · refine ⟨_, exec_load_long hf hl (Nat.not_lt.mp hn), ?_, ?_, fun h => absurd h hn⟩
    · rw [if_neg hn]
      exact hf
    · exact iff_of_true rfl (Nat.not_lt.mp hn)

theorem whenNotLoaded_of_true {k : Outcome} (hl : s.loaded = true) :
    whenNotLoaded s k = .refused .alreadyLoaded := by simp [whenNotLoaded, hl]

/-- Settles O12: LOAD is admitted, and its own gate refuses it. -/
theorem secondLoadIsRefused : Obligations.SecondLoadIsRefused :=
  fun _ _ hf hl => (whenAdmitted_of_none hf).trans (whenNotLoaded_of_true hl)

/-- The loop of single byte writes into an empty space leaves it filled with the bytes: both are in canonical form and
read alike (40_loader.md R72, 20_memory.md R39). -/
theorem writeBytesFrom_nil (bs : List Byte) : writeBytesFrom 0 bs [] = Memory.ofList bs := by
  have hle : 0 + bs.length ≤ bs.length := by omega
  refine Memory.wf_ext (wf_writeBytesFrom bs 0 [] (Memory.wf_nil _) hle) (Memory.wf_ofList bs (Nat.le_refl _)) fun a => ?_
  rw [read_writeBytesFrom, Memory.read_ofList]
  split
  · rfl
  · exact (List.getElem?_eq_none (by omega)).symm

/-- Settles O13. -/
theorem loadEqualsItsByteWrites : Obligations.LoadEqualsItsByteWrites := by
  intro snap s hf hl hn
  rw [writeBytesFrom_nil, writeBytesFrom_nil]
  exact exec_load_long hf hl hn

theorem take_drop_congr {start len : Nat} (h : ∀ k, start ≤ k → k < start + len → snap[k]? = snap'[k]?) :
    (snap.drop start).take len = (snap'.drop start).take len := by
  refine List.ext_getElem? fun i => ?_
  rw [List.getElem?_take, List.getElem?_take, List.getElem?_drop, List.getElem?_drop]
  split
  · exact h _ (by omega) (by omega)
  · rfl

/-- Of a snapshot that is long enough the copy reads offsets 27 to 6938 alone (40_loader.md R74). -/
theorem loadSnapshot_congr (s : State) (hn : 6939 ≤ snap.length) (hn' : 6939 ≤ snap'.length)
    (h : ∀ k, 27 ≤ k → k ≤ 6938 → snap[k]? = snap'[k]?) : loadSnapshot snap s = loadSnapshot snap' s := by
  have hbm : snapBitmap snap = snapBitmap snap' := take_drop_congr fun k h1 h2 => by
    simp only [Config.bmStart, Config.bmSize] at h1 h2
    exact h k h1 (by omega)
  have ham : snapAttributes snap = snapAttributes snap' := take_drop_congr fun k h1 h2 => by
    simp only [Config.amStart, Config.amSize] at h1 h2
    exact h k (by omega) (by omega)
  rw [loadSnapshot_long hn, loadSnapshot_long hn', hbm, ham]

/-- Settles O14: LOAD and RENDER use the snapshot through the copy alone. -/
theorem headerAndTailAreNotRead : Obligations.HeaderAndTailAreNotRead := by
  intro snap snap' s hn hn' h
  have hload := loadSnapshot_congr s hn hn' h
  constructor
  · change execLoad snap s = execLoad snap' s
    rw [execLoad, execLoad, hload]
  · change execRender snap s = execRender snap' s
    rw [execRender, execRender, hload]

end Sys2Proof.Machine
end

section
/-! PROOFS. The row map: its own inverse, its fixed points and steps, and the coordinates that share a byte of BM
(41_address_translator.md R86, R87). -/

namespace Sys2Proof.Machine

variable {x y c off : Nat}

/-- Exchanging the fields charIndex and charRow twice gives the row back. -/
theorem memRow_involutive : Function.Involutive memRow := by
  intro y
  obtain ⟨b, c, r, rfl, hc, hr⟩ := row_fields y
  rw [memRow_fields hc hr, memRow_fields hr hc]

theorem memRow_div_blockHeight (y : Nat) : memRow y / 64 = y / 64 := by rw [memRow_eq]; omega

/-- A row is fixed exactly when its charIndex and its charRow are one number. -/
theorem memRow_eq_self_iff : memRow y = y ↔ ∃ b k, k < 8 ∧ y = 64 * b + 9 * k := by
  constructor
  · intro h
    obtain ⟨b, c, r, rfl, hc, hr⟩ := row_fields y
    rw [memRow_fields hc hr] at h
    exact ⟨b, c, hc, by omega⟩
  · rintro ⟨b, k, hk, rfl⟩
    have hfields : 64 * b + 9 * k = 64 * b + 8 * k + k := by omega
    rw [hfields, memRow_fields hk hk]

/-- One scanline down inside a cell. -/
theorem memRow_succ (h : y % 8 < 7) : memRow (y + 1) = memRow y + 8 := by
  obtain ⟨b, c, r, rfl, hc, hr⟩ := row_fields y
  have hnext : 64 * b + 8 * c + r + 1 = 64 * b + 8 * c + (r + 1) := by omega
  rw [hnext, memRow_fields hc (by omega), memRow_fields hc hr]
  omega

/-- One character row down inside a block. -/
theorem memRow_add_eight (h : y % 64 < 56) : memRow (y + 8) = memRow y + 1 := by
  obtain ⟨b, c, r, rfl, hc, hr⟩ := row_fields y
  have hnext : 64 * b + 8 * c + r + 8 = 64 * b + 8 * (c + 1) + r := by omega
  rw [hnext, memRow_fields (by omega) hr, memRow_fields hc hr]
  rfl

/-- The eight pixel columns of one column of the bitmap grid. -/
theorem memCol_eq_iff : memCol x = c ↔ ∃ k, k < 8 ∧ x = 8 * c + k := by
  constructor
  · rintro rfl
    exact ⟨x % 8, Nat.mod_lt x (by decide), (Nat.div_add_mod x 8).symm⟩
  · rintro ⟨k, hk, rfl⟩
    simp only [memCol, Config.cell]
    omega

/-- An offset determines its row and its column of the bitmap grid. -/
theorem bmOffset_eq_iff (hx : x < 256) : bmOffset x y = off ↔ y = memRow (off / 32) ∧ memCol x = off % 32 := by
  have hcol : memCol x < 32 := by simp only [memCol, Config.cell]; omega
  rw [← memRow_involutive.eq_iff, bmOffset, gridOffset, Config.cols]
  omega

/-- Settles O16: the map is its own inverse, so the only row that goes to `r` is `memRow r`; an offset is a row and a
column of the grid, and a column is eight pixel columns. -/
theorem rowMapIsBijection : Obligations.RowMapIsBijection := by
  refine ⟨fun y _ => (memRow_eq y).symm, fun _ => memRow_lt, fun r hr => ?_, fun off hoff => ?_⟩
  · exact ⟨memRow r, memRow_lt hr, memRow_involutive r, fun _ _ => memRow_involutive.eq_iff.mp⟩
  · refine ⟨off % 32, memRow (off / 32), by omega, memRow_lt (by omega), fun x' y' hx' _ => ?_⟩
    rw [bmOffset_eq_iff hx', memCol_eq_iff]

/-- Settles O17: the fixed points above are those of every block, and a row below 192 is in one of three. -/
theorem rowMapProperties : Obligations.RowMapProperties := by
  intro y hy
  refine ⟨memRow_involutive y, memRow_div_blockHeight y, memRow_eq_self_iff.trans ⟨?_, ?_⟩, memRow_succ,
    memRow_add_eight⟩
  · rintro ⟨b, k, hk, rfl⟩
    exact ⟨b, k, by omega, hk, rfl⟩
  · rintro ⟨b, k, -, hk, rfl⟩
    exact ⟨b, k, hk, rfl⟩

end Sys2Proof.Machine
end

section
/-! PROOFS. XLATE and BMREAD (41_address_translator.md R80 to R85, R90). -/

namespace Sys2Proof.Machine

variable {s : State} {x y : Nat}

theorem exec_bmread_of_unloaded (hf : s.fault = .none) (hl : s.loaded = false) :
    exec (.bmread x y) s = .next { s with fault := .notLoaded, result := .none } :=
  (whenAdmitted_of_none hf).trans (whenLoaded_of_false hl)

theorem exec_bmread_of_outOfRange (hf : s.fault = .none) (hl : s.loaded = true) (h : ¬ (x < 256 ∧ y < 192)) :
    exec (.bmread x y) s = .next { s with fault := .coordinateRange x y, result := .none } :=
  (whenAdmitted_of_none hf).trans ((whenLoaded_of_true hl).trans (whenInRange_of_not h))

/-- The eight coordinates of a scanline segment have one offset. -/
theorem bmOffset_segment {k : Nat} (y : Nat) (hk : k < 8) : bmOffset (8 * (x / 8) + k) y = bmOffset x y := by
  have hcol : memCol (8 * (x / 8) + k) = memCol x := memCol_eq_iff.mpr ⟨k, hk, rfl⟩
  rw [bmOffset, hcol, bmOffset]

/-- Settles O15: XLATE gives back what its port carries, the offset of R84. -/
theorem xlateGivesOffset : Obligations.XlateGivesOffset := by
  intro x y s hf hx hy
  rw [← bmOffset_eq]
  exact ⟨exec_xlate_of_lt hf hx hy, Nat.le_of_lt_succ (bmOffset_lt hx hy)⟩

/-- Settles O18: NotLoaded comes before the range; past both, the invariant gives the byte, and the segment shares it. -/
theorem bmreadGivesByte : Obligations.BmreadGivesByte := by
  intro x y s hf
  refine ⟨exec_bmread_of_unloaded hf, fun hl hout => exec_bmread_of_outOfRange hf hl (by omega), fun hi hl hx hy => ?_⟩
  obtain ⟨byte, hbyte, -⟩ := readBm_of_inv hi hl (bmOffset_lt hx hy)
  refine ⟨byte, bmOffset_eq x y ▸ hbyte, exec_bmread_of_read hf hl hx hy hbyte, fun k hk => ?_⟩
  exact exec_bmread_of_read hf hl (by omega) hy ((bmOffset_segment y hk).symm ▸ hbyte)

end Sys2Proof.Machine
end

section
/-! PROOFS. ATTRDEC, PALLUT and CRESOLVE (42_color_palette.md R100 to R107). -/

namespace Sys2Proof.Machine

variable {s : State}

theorem attrBright_eq (a : Byte) : attrBright a = decide (a.toNat / 64 % 2 = 1) := by
  rw [attrBright, BitVec.getLsbD, Nat.testBit_eq_decide_div_mod_eq]

theorem attrPaper_eq (a : Byte) : attrPaper a = BitVec.ofNat 3 (a.toNat / 8 % 8) := by
  apply BitVec.eq_of_toNat_eq
  rw [attrPaper, toNat_extractLsb'_eq, BitVec.toNat_ofNat]
  omega

theorem attrInk_eq (a : Byte) : attrInk a = BitVec.ofNat 3 (a.toNat % 8) := by
  apply BitVec.eq_of_toNat_eq
  rw [attrInk, toNat_extractLsb'_eq, BitVec.toNat_ofNat]
  omega

theorem exec_attrdec_of_none (a : Byte) (hf : s.fault = .none) :
    exec (.attrdec a) s = .next { s with result := .attrFields (attrBright a) (attrPaper a) (attrInk a) } :=
  whenAdmitted_of_none hf

theorem exec_pallut_of_none (index : ColourIndex) (bright : Bool) (hf : s.fault = .none) :
    exec (.pallut index bright) s = .next { s with result := .rgb (palette index bright) } :=
  whenAdmitted_of_none hf

/-- Settles O19: the three fields of the byte, read as quotients and remainders. -/
theorem attrdecGivesFields : Obligations.AttrdecGivesFields := by
  intro a s hf
  rw [← attrBright_eq, ← attrPaper_eq, ← attrInk_eq]
  exact exec_attrdec_of_none a hf

/-- Settles O20: the three sourced entries stand over the free ones. -/
theorem pallutGivesPaletteEntry : Obligations.PallutGivesPaletteEntry :=
  ⟨fun index bright _ hf => exec_pallut_of_none index bright hf, palette_black, palette_brightWhite, palette_red⟩

/-- Settles O21: the fields that `resolve` looks up are those of the arithmetic form; LOADED is in no gate. -/
theorem cresolveGivesPair : Obligations.CresolveGivesPair := by
  intro a s hf
  rw [← attrBright_eq, ← attrPaper_eq, ← attrInk_eq]
  exact exec_cresolve_of_none a hf

/-- A pair depends on the three fields alone. -/
theorem resolve_congr {a b : Byte} (pal : Palette) (hbright : attrBright a = attrBright b)
    (hpaper : attrPaper a = attrPaper b) (hink : attrInk a = attrInk b) : resolve pal a = resolve pal b := by
  rw [resolve, resolve, hbright, hpaper, hink]

/-- CRESOLVE uses its byte through the pair alone, admitted or not. -/
theorem exec_cresolve_congr {a b : Byte} (s : State) (h : resolve palette a = resolve palette b) :
    exec (.cresolve a) s = exec (.cresolve b) s := by
  change execCresolve a s = execCresolve b s
  rw [execCresolve, execCresolve, h]

/-- No field of an attribute byte holds bit 7 (42_color_palette.md R104, 30_encoding.md R61). -/
theorem resolve_mod_128 (pal : Palette) (a : Byte) :
    resolve pal a = resolve pal (BitVec.ofNat 8 (a.toNat % 128)) := by
  have hlow : (BitVec.ofNat 8 (a.toNat % 128)).toNat = a.toNat % 128 := by
    rw [BitVec.toNat_ofNat]; omega
  have hbright : a.toNat % 128 / 64 % 2 = a.toNat / 64 % 2 := by omega
  have hpaper : a.toNat % 128 / 8 % 8 = a.toNat / 8 % 8 := by omega
  have hink : a.toNat % 128 % 8 = a.toNat % 8 := by omega
  apply resolve_congr pal
  · rw [attrBright_eq, attrBright_eq, hlow, hbright]
  · rw [attrPaper_eq, attrPaper_eq, hlow, hpaper]
  · rw [attrInk_eq, attrInk_eq, hlow, hink]

/-- Settles O22: CRESOLVE uses its byte through the pair, and the pair never uses bit 7. -/
theorem attributeBitSevenIsIgnored : Obligations.AttributeBitSevenIsIgnored :=
  fun a => ⟨fun pal => resolve_mod_128 pal a, fun s => exec_cresolve_congr s (resolve_mod_128 palette a)⟩

theorem exec_cresolve_of_resolve {a : Byte} {paper ink : RGB} (hf : s.fault = .none)
    (h : resolve palette a = (paper, ink)) : exec (.cresolve a) s = .next { s with result := .colours paper ink } := by
  rw [exec_cresolve_of_none a hf, h]

theorem resolve_00 (pal : Palette) : resolve pal 0x00#8 = (pal 0 false, pal 0 false) := rfl

theorem resolve_FF (pal : Palette) : resolve pal 0xFF#8 = (pal 7 true, pal 7 true) := rfl

/-- Paper 2, not bright: the byte of the example that the source writes as 0x50 (90_conflicts.md C1). -/
theorem resolve_10 (pal : Palette) : resolve pal 0x10#8 = (pal 2 false, pal 0 false) := rfl

theorem resolve_50 (pal : Palette) : resolve pal 0x50#8 = (pal 2 true, pal 0 true) := rfl

/-- Settles O23: of each byte the entries it looks up, under every palette; then which of them are sourced. -/
theorem cresolveSourcedResults : Obligations.CresolveSourcedResults := by
  have h00 : resolve palette 0x00#8 = (⟨0, 0, 0⟩, ⟨0, 0, 0⟩) := by rw [resolve_00, palette_black]
  have hFF : resolve palette 0xFF#8 = (⟨255, 255, 255⟩, ⟨255, 255, 255⟩) := by rw [resolve_FF, palette_brightWhite]
  have h10 : resolve palette 0x10#8 = (⟨215, 0, 0⟩, ⟨0, 0, 0⟩) := by rw [resolve_10, palette_red, palette_black]
  refine ⟨fun s hf => ?_, by decide⟩
  exact ⟨exec_cresolve_of_resolve hf h00, exec_cresolve_of_resolve hf hFF, exec_cresolve_of_resolve hf h10,
    exec_cresolve_of_resolve hf (resolve_50 palette), exec_attrdec_of_none _ hf⟩

end Sys2Proof.Machine
end

section
/-! PROOFS. CELL, ATREAD and BITSEL, and the coordinates that share a byte (43_compositor.md R120 to R122, R129). -/

namespace Sys2Proof.Machine

variable {s : State} {x y x' y' : Nat}

/-- The gates of BMREAD, ATREAD, PIXEL and FRAME: NotLoaded comes first (60_exceptions.md R153, R157). -/
theorem whenAdmitted_raises_notLoaded {k : Outcome} (hf : s.fault = .none) (hl : s.loaded = false) :
    whenAdmitted s (whenLoaded s k) = .next { s with fault := .notLoaded, result := .none } :=
  (whenAdmitted_of_none hf).trans (whenLoaded_of_false hl)

/-- The gates of BMREAD, ATREAD and PIXEL on a loaded block: the range (60_exceptions.md R152). -/
theorem whenAdmitted_raises_coordinateRange {k : Outcome} (hf : s.fault = .none) (hl : s.loaded = true)
    (h : ¬ (x < 256 ∧ y < 192)) :
    whenAdmitted s (whenLoaded s (whenInRange x y s k)) =
      .next { s with fault := .coordinateRange x y, result := .none } :=
  (whenAdmitted_of_none hf).trans ((whenLoaded_of_true hl).trans (whenInRange_of_not h))

theorem exec_cell_of_outOfRange (hf : s.fault = .none) (h : ¬ (x < 256 ∧ y < 192)) :
    exec (.cell x y) s = .next { s with fault := .coordinateRange x y, result := .none } :=
  (whenAdmitted_of_none hf).trans (whenInRange_of_not h)

/-- The offset of an attribute byte depends on the cell alone (43_compositor.md R120). -/
theorem amOffset_congr (hx : x / 8 = x' / 8) (hy : y / 8 = y' / 8) : amOffset x y = amOffset x' y' := by
  rw [amOffset_eq, amOffset_eq, hx, hy]

/-- The offset of a bitmap byte depends on the scanline and the column of the grid. -/
theorem bmOffset_congr (hx : x / 8 = x' / 8) (y : Nat) : bmOffset x y = bmOffset x' y := by
  rw [bmOffset_eq, bmOffset_eq, hx]

/-- The scanlines of a cell lie 256 bytes apart in BM (43_compositor.md R129). -/
theorem bmOffset_of_cell (hx : x / 8 = x' / 8) (hy : y / 8 = y' / 8) :
    bmOffset x y = y' / 64 * 2048 + y' % 64 / 8 * 32 + x' / 8 + 256 * (y % 8) := by
  rw [bmOffset_eq]; omega

/-- In range, BMREAD uses its coordinate through the offset alone, in every state. -/
theorem exec_bmread_congr (s : State) (hx : x < 256) (hy : y < 192) (hx' : x' < 256) (hy' : y' < 192)
    (h : bmOffset x y = bmOffset x' y') : exec (.bmread x y) s = exec (.bmread x' y') s := by
  change execBmread x y s = execBmread x' y' s
  rw [execBmread, execBmread, whenInRange_of_lt hx hy, whenInRange_of_lt hx' hy', bmAddrPort, bmAddrPort, h]

/-- In range, ATREAD uses its coordinate through the offset alone, in every state. -/
theorem exec_atread_congr (s : State) (hx : x < 256) (hy : y < 192) (hx' : x' < 256) (hy' : y' < 192)
    (h : amOffset x y = amOffset x' y') : exec (.atread x y) s = exec (.atread x' y') s := by
  change execAtread x y s = execAtread x' y' s
  rw [execAtread, execAtread, whenInRange_of_lt hx hy, whenInRange_of_lt hx' hy', amAddrPort, amAddrPort, h]

/-- Settles O25: CELL gives back what its port carries, the offset of R120, which the scanlines of a row share. -/
theorem cellGivesOffset : Obligations.CellGivesOffset := by
  intro x y s hf
  refine ⟨fun hx hy => ?_, fun hout => exec_cell_of_outOfRange hf (by omega)⟩
  have hcell := exec_cell_of_lt hf hx hy
  refine ⟨amOffset_eq x y ▸ hcell, by omega, by omega, amOffset_eq x y ▸ amOffset_lt hx hy, fun k hk => ?_⟩
  have hoff : amOffset x (8 * (y / 8) + k) = amOffset x y := amOffset_congr rfl (by omega)
  rw [hcell, exec_cell_of_lt hf hx (by omega), amAddrPort, hoff, amAddrPort]

/-- Settles O26: NotLoaded comes before the range; past both, the invariant gives the byte, and the cell shares it. -/
theorem atreadGivesAttribute : Obligations.AtreadGivesAttribute := by
  intro x y s hf
  refine ⟨whenAdmitted_raises_notLoaded hf, fun hl hout => whenAdmitted_raises_coordinateRange hf hl (by omega),
    fun hi hl hx hy => ?_⟩
  obtain ⟨a, ha, -⟩ := readAm_of_inv hi hl (amOffset_lt hx hy)
  have hread := exec_atread_of_read hf hl hx hy ha
  refine ⟨a, amOffset_eq x y ▸ ha, hread, fun j k hj hk => ?_⟩
  have hoff : amOffset (8 * (x / 8) + j) (8 * (y / 8) + k) = amOffset x y := amOffset_congr (by omega) (by omega)
  exact (exec_atread_congr s (by omega) (by omega) hx hy hoff).trans hread

/-- Settles O27. -/
theorem bitselGivesBit : Obligations.BitselGivesBit := by
  intro byte x s hf
  rw [← bitOf_eq]
  exact exec_bitsel_of_none byte x hf

/-- Settles O28: equal offsets give equal outcomes, whatever the gates say. -/
theorem coordinatesShareBytes : Obligations.CoordinatesShareBytes := by
  intro x y x' y' s hx hy hx' hy' hcol
  refine ⟨?_, fun hrow => exec_atread_congr s hx hy hx' hy' (amOffset_congr hcol hrow), bmOffset_of_cell hcol⟩
  rintro rfl
  exact exec_bmread_congr s hx hy hx' hy (bmOffset_congr hcol y)

end Sys2Proof.Machine
end

section
/-! PROOFS. PIXEL: the colour it writes, its frame and its repetition (43_compositor.md R123, R124). -/

namespace Sys2Proof.Machine

variable {s t : State} {x y : Nat}

/-- The colour of a pixel of column x, as arithmetic on its attribute byte and its bitmap byte: ink or paper by bit
`7 - (x mod 8)`, both in the variant of attribute bit 6 (43_compositor.md R123, R132). -/
def inkOrPaper (x : Nat) (a byte : Byte) : RGB :=
  palette
    (if byte.toNat / 2 ^ (7 - x % 8) % 2 = 1 then BitVec.ofNat 3 (a.toNat % 8) else BitVec.ofNat 3 (a.toNat / 8 % 8))
    (decide (a.toNat / 64 % 2 = 1))

/-- The datapath of a pixel selects that colour. -/
theorem pixelPorts_colour (x y : Nat) (a byte : Byte) :
    (pixelPorts palette x y a byte).rasterData.colour = inkOrPaper x a byte := by
  have hselect : (pixelPorts palette x y a byte).rasterData.colour =
      if bitOf byte x then palette (attrInk a) (attrBright a) else palette (attrPaper a) (attrBright a) := rfl
  rw [hselect, inkOrPaper, ← attrInk_eq, ← attrPaper_eq, ← attrBright_eq, bitOf_eq]
  simp only [decide_eq_true_eq]
  exact (apply_ite (palette · (attrBright a)) _ _ _).symm

/-- Where AM and BM hold its two bytes, a pixel has their colour. -/
theorem pixelColourAt_of_reads {a byte : Byte} (hx : x < 256) (hy : y < 192)
    (ha : Memory.read s.am (amOffset x y) = some a) (hb : Memory.read s.bm (bmOffset x y) = some byte) :
    pixelColourAt palette s (rasterIndex x y) = .ok (inkOrPaper x a byte) := by
  have hra : readAm s (amOffset x y) = .ok a := readSpace_ok (amOffset_lt hx hy) ha
  have hrb : readBm s (bmOffset x y) = .ok byte := readSpace_ok (bmOffset_lt hx hy) hb
  have hports : composePixel palette s x y = .ok (pixelPorts palette x y a byte) :=
    composePixel_eq_ok.mpr ⟨a, byte, by rw [amAddrPort_toNat hx hy, hra], by rw [bmAddrPort_toNat hx hy, hrb], rfl⟩
  rw [composePixel_colour hx hports, pixelPorts_colour]

/-- Settles O29: NotLoaded comes before the range; past both, the invariant gives the two bytes. -/
theorem pixelWritesItsColour : Obligations.PixelWritesItsColour := by
  intro x y s hf
  refine ⟨whenAdmitted_raises_notLoaded hf, fun hl hout => whenAdmitted_raises_coordinateRange hf hl (by omega),
    fun hi hl hx hy => ?_⟩
  obtain ⟨a, byte, ha, hb, -⟩ := composePixel_of_inv palette hi hl hx hy
  refine ⟨a, byte, amOffset_eq x y ▸ ha, bmOffset_eq x y ▸ hb, ?_⟩
  rw [← rasterIndex_eq]
  exact execPixel_of_colour hf hl hx hy (pixelColourAt_of_reads hx hy ha hb)

/-- What a PIXEL that answers has done: it raised, or it wrote the one pixel with its colour. -/
theorem exec_pixel_cases (h : exec (.pixel x y) s = .next t) : s.fault = .none ∧
    ((∃ f, f ≠ .none ∧ t = { s with fault := f, result := .none }) ∨
      (s.loaded = true ∧ x < 256 ∧ y < 192 ∧ ∃ c, pixelColourAt palette s (rasterIndex x y) = .ok c ∧
        t = { s with raster := Memory.write s.raster (rasterIndex x y) c, result := .none })) := by
  obtain ⟨hf, he⟩ := exec_effect h
  refine ⟨hf, ?_⟩
  cases he with
  | gives _ hr => exact hr.elim
  | raises hr => exact .inl ⟨_, hr.ne_none, rfl⟩
  | composes hl hx hy hc => exact .inr ⟨hl, hx, hy, _, hc, rfl⟩

/-- Settles O30: a raise writes FAULT alone, and a PIXEL that writes keeps it. -/
theorem pixelFrame : Obligations.PixelFrame := by
  intro x y s t h
  obtain ⟨hf, ⟨f, -, rfl⟩ | ⟨-, -, -, c, -, rfl⟩⟩ := exec_pixel_cases h
  · exact ⟨fun _ => rfl, fun _ => rfl, fun _ _ => rfl, fun _ => rfl, rfl, rfl, rfl⟩
  · exact ⟨fun _ => rfl, fun _ => rfl, fun p hp => Memory.read_write_other _ c hp.symm, fun hne => absurd hf hne,
      rfl, rfl, rfl⟩

/-- The second of two writes at one address takes the first one's place, in any list of cells. -/
theorem Memory.write_write_same {α : Type} (m : List (Nat × α)) (a : Nat) (v w : α) :
    Memory.write (Memory.write m a v) a w = Memory.write m a w := by
  induction m with
  | nil => simp [Memory.write]
  | cons c m ih =>
    obtain ⟨b, u⟩ := c
    rcases Nat.lt_trichotomy a b with hlt | rfl | hgt
    · simp [Memory.write, hlt]
    · simp [Memory.write]
    · simp [Memory.write, hgt.not_gt, hgt.ne', ih]

/-- Settles O31: the colour does not depend on RASTER, so the second PIXEL writes the same value at the same index. -/
theorem pixelRepeats : Obligations.PixelRepeats := by
  intro x y s t h hft
  obtain ⟨-, ⟨f, hne, rfl⟩ | ⟨hl, hx, hy, c, hc, ht⟩⟩ := exec_pixel_cases h
  · exact absurd hft hne
  · have hlt : t.loaded = true := by rw [ht]; exact hl
    have hct : pixelColourAt palette t (rasterIndex x y) = .ok c :=
      (pixelColourAt_congr (by rw [ht]) (by rw [ht]) _).trans hc
    have hagain : exec (.pixel x y) t = _ := execPixel_of_colour hft hlt hx hy hct
    rw [hagain, ht]
    simp only [Memory.write_write_same]

end Sys2Proof.Machine
end

section
/-! PROOFS. FRAME and RENDER (43_compositor.md R125 to R132). -/

namespace Sys2Proof.Machine

variable {snap : List Byte} {s : State} {cs : List RGB} {x y : Nat}

theorem exec_frame_of_none (hf : s.fault = .none) : exec .frame s = composeFrame s :=
  whenAdmitted_of_none hf

/-- Under the invariant FRAME on a loaded block completes. -/
theorem exec_frame_of_inv (hi : s.Inv) (hf : s.fault = .none) (hl : s.loaded = true) :
    ∃ cs, frameColours palette s = .ok cs ∧ exec .frame s = .next (framedWith cs s) := by
  obtain ⟨cs, hcs⟩ := frameColours_of_inv palette hi hl
  exact ⟨cs, hcs, (exec_frame_of_none hf).trans (composeFrame_of_colours hl hcs)⟩

/-- After a frame every pixel has the colour of its two bytes. -/
theorem read_framedWith {a byte : Byte} (hcs : frameColours palette s = .ok cs) (hx : x < 256) (hy : y < 192)
    (ha : Memory.read s.am (amOffset x y) = some a) (hb : Memory.read s.bm (bmOffset x y) = some byte) :
    Memory.read (framedWith cs s).raster (rasterIndex x y) = some (inkOrPaper x a byte) := by
  obtain ⟨c, hread, hc⟩ := (frameColours_read hcs).2 _ (rasterIndex_lt hx hy)
  have hcolour : Except.ok c = Except.ok (inkOrPaper x a byte) := hc.symm.trans (pixelColourAt_of_reads hx hy ha hb)
  rw [← Except.ok.inj hcolour]
  exact hread

/-- A frame lists no pixel outside RASTER. -/
theorem read_framedWith_outside (hcs : frameColours palette s = .ok cs) {p : Nat} (hp : 49152 ≤ p) :
    Memory.read (framedWith cs s).raster p = none := by
  have hlen : cs.length = 49152 := (frameColours_read hcs).1
  exact (Memory.read_ofList cs p).trans (List.getElem?_eq_none (hlen ▸ hp))

/-- Settles O33: the frame writes RASTER and DONE alone, and the invariant gives every pixel's two bytes. -/
theorem frameComposesEveryPixel : Obligations.FrameComposesEveryPixel := by
  intro s hi hf hl
  obtain ⟨cs, hcs, hframe⟩ := exec_frame_of_inv hi hf hl
  refine ⟨framedWith cs s, hframe, rfl, hl, hf, rfl, fun _ => rfl, fun _ => rfl,
    fun _ => read_framedWith_outside hcs, fun x y hx hy => ?_⟩
  obtain ⟨a, byte, ha, hb, -⟩ := composePixel_of_inv palette hi hl hx hy
  exact ⟨a, byte, amOffset_eq x y ▸ ha, bmOffset_eq x y ▸ hb, rasterIndex_eq x y ▸ read_framedWith hcs hx hy ha hb⟩

/-- Settles O35: before and after, RASTER holds exactly the pixels of its space, and the invariant fixes their colours. -/
theorem frameAgainChangesNothing : Obligations.FrameAgainChangesNothing := by
  intro s hi hf hl hd
  obtain ⟨cs, hcs, hframe⟩ := exec_frame_of_inv hi hf hl
  have hframed : (framedWith cs s).Inv := framedWith_inv hi hl hcs
  have hraster : Memory.ofList cs = s.raster := hi.raster_eq_of_held hframed rfl rfl fun p =>
    (hframed.held_iff_lt rfl p).trans (hi.held_iff_lt hd p).symm
  rw [hframe, framedWith, hraster, ← hd]

theorem exec_render_short (hf : s.fault = .none) (hl : s.loaded = false) (hd : s.done = false)
    (hn : snap.length < 6939) :
    exec (.render snap) s = .next { s with fault := .formatError snap.length, result := .none } := by
  change execRender snap s = _
  rw [execRender, whenAdmitted_of_none hf, whenFresh_of_fresh hl hd, loadSnapshot_short hn, thenUnlessFaulted,
    if_neg (by simp)]

/-- Settles O36: both are the frame of the loaded state. -/
theorem renderIsLoadThenFrame : Obligations.RenderIsLoadThenFrame := by
  intro snap s t hf hl hd hn hload
  rw [exec_load_long hf hl hn] at hload
  cases hload
  exact (execRender_of_fresh hf hl hd hn).trans (exec_frame_of_none (s := loadedWith snap s) hf).symm

theorem frameColours_congr {pal : Palette} {t : State} (hb : t.bm = s.bm) (ha : t.am = s.am) :
    frameColours pal t = frameColours pal s := by
  rw [frameColours, frameColours, funext (pixelColourAt_congr hb ha)]

/-- A loaded snapshot has a colour for every pixel, whatever RASTER held before: the colours are those of the same
snapshot loaded from reset. -/
theorem frameColours_of_loadedWith (s : State) (hn : 6939 ≤ snap.length) :
    ∃ cs, frameColours palette (loadedWith snap s) = .ok cs := by
  obtain ⟨cs, hcs⟩ := frameColours_of_inv palette (loadedWith_inv reset_raster reset_done hn) rfl
  exact ⟨cs, (frameColours_congr rfl rfl).trans hcs⟩

/-- Settles O37: the frame of the loaded snapshot, whose bytes are the snapshot's. -/
theorem renderClosedForm : Obligations.RenderClosedForm := by
  intro snap s hf hl hd hn
  obtain ⟨cs, hcs⟩ := frameColours_of_loadedWith s hn
  have hlen : cs.length = 49152 := (frameColours_read hcs).1
  refine ⟨framedWith cs (loadedWith snap s), (execRender_of_fresh hf hl hd hn).trans (composeFrame_of_colours rfl hcs),
    ⟨rfl, rfl, hf⟩, if_pos hf, (Memory.length_ofList cs).trans hlen, rfl, fun x y hx hy => ?_⟩
  obtain ⟨a, ha, hra⟩ := loadedWith_copies_am s hn (amOffset_lt hx hy)
  obtain ⟨byte, hb, hrb⟩ := loadedWith_copies_bm s hn (bmOffset_lt hx hy)
  have hrow : y % 64 % 8 = y % 8 := Nat.mod_mod_of_dvd y (by decide)
  exact ⟨a, byte, amOffset_eq x y ▸ ha, hrow ▸ bmOffset_eq x y ▸ hb,
    rasterIndex_eq x y ▸ read_framedWith hcs hx hy hra hrb⟩

/-- Settles O38: LOAD's raise is RENDER's, and no frame follows it. -/
theorem shortRenderRaisesFormatError : Obligations.ShortRenderRaisesFormatError :=
  fun _ _ hf hl hd hn => ⟨exec_render_short hf hl hd hn, if_neg (by simp)⟩

end Sys2Proof.Machine
end

section
/-! PROOFS. The faults an operation raises: each with its causes, and nothing written but FAULT (60_exceptions.md R150
to R157). -/

namespace Sys2Proof.Machine

variable {i : Instr} {s t : State} {x y : Nat}

/-- An operation keeps FAULT, or raises: it then writes FAULT alone and gives nothing back. -/
theorem Effect.fault_eq_or_raises (h : Effect i s t) :
    t.fault = s.fault ∨ (Raises i s t.fault ∧ t = { s with fault := t.fault, result := .none }) := by
  cases h with
  | gives | loads | composes | frames | renders => exact .inl rfl
  | raises hr => exact .inr ⟨hr, rfl⟩

/-- A fault after an operation is one that it raised: none stood before, for the operation was admitted. -/
theorem raises_of_exec (h : exec i s = .next t) (hne : t.fault ≠ .none) :
    Raises i s t.fault ∧ t = { s with fault := t.fault, result := .none } := by
  obtain ⟨hf, he⟩ := exec_effect h
  exact he.fault_eq_or_raises.resolve_left fun hkeep => hne (hkeep.trans hf)

theorem Raises.formatError_cause {n : Nat} (h : Raises i s (.formatError n)) :
    n < 6939 ∧ ∃ snap : List Byte, snap.length = n ∧ (i = .load snap ∨ i = .render snap) := by
  cases h with
  | loadShort _ hn => exact ⟨hn, _, rfl, .inl rfl⟩
  | renderShort _ hn => exact ⟨hn, _, rfl, .inr rfl⟩

theorem Raises.coordinateRange_cause (h : Raises i s (.coordinateRange x y)) :
    ¬ (x < 256 ∧ y < 192) ∧ (i = .xlate x y ∨ i = .cell x y ∨
      (s.loaded = true ∧ (i = .bmread x y ∨ i = .atread x y ∨ i = .pixel x y))) := by
  cases h with
  | xlateRange hr => exact ⟨hr, .inl rfl⟩
  | cellRange hr => exact ⟨hr, .inr (.inl rfl)⟩
  | bmreadRange hl hr => exact ⟨hr, .inr (.inr ⟨hl, .inl rfl⟩)⟩
  | atreadRange hl hr => exact ⟨hr, .inr (.inr ⟨hl, .inr (.inl rfl)⟩)⟩
  | pixelRange hl hr => exact ⟨hr, .inr (.inr ⟨hl, .inr (.inr rfl)⟩)⟩

theorem Raises.notLoaded_cause (h : Raises i s .notLoaded) :
    s.loaded = false ∧ ((∃ x y, i = .bmread x y ∨ i = .atread x y ∨ i = .pixel x y) ∨ i = .frame) := by
  cases h with
  | bmreadUnloaded hl => exact ⟨hl, .inl ⟨_, _, .inl rfl⟩⟩
  | atreadUnloaded hl => exact ⟨hl, .inl ⟨_, _, .inr (.inl rfl)⟩⟩
  | pixelUnloaded hl => exact ⟨hl, .inl ⟨_, _, .inr (.inr rfl)⟩⟩
  | frameUnloaded hl => exact ⟨hl, .inr rfl⟩

/-- Settles O41. -/
theorem raiseWritesOnlyFault : Obligations.RaiseWritesOnlyFault :=
  fun _ _ _ h hne => (raises_of_exec h hne).2

/-- Settles O42: the fault was raised by this operation, and each value of FAULT has its own causes in `Raises`. -/
theorem faultsHaveTheirCauses : Obligations.FaultsHaveTheirCauses := by
  intro i s t h
  have raised {f : FaultFlag} (hft : t.fault = f) (hne : f ≠ .none) : Raises i s f :=
    hft ▸ (raises_of_exec h (hft ▸ hne)).1
  refine ⟨fun n hft => (raised hft (by simp)).formatError_cause, fun x y hft => ?_,
    fun hft => (raised hft (by simp)).notLoaded_cause⟩
  obtain ⟨hrange, hop⟩ := (raised hft (by simp)).coordinateRange_cause
  exact ⟨by omega, hop⟩

theorem exec_xlate_of_outOfRange (hf : s.fault = .none) (h : ¬ (x < 256 ∧ y < 192)) :
    exec (.xlate x y) s = .next { s with fault := .coordinateRange x y, result := .none } :=
  (whenAdmitted_of_none hf).trans (whenInRange_of_not h)

/-- Settles O39: XLATE and CELL have the range check alone, the other three have it behind LOADED. -/
theorem outOfRangeRaisesCoordinateRange : Obligations.OutOfRangeRaisesCoordinateRange := by
  intro x y s hf hout
  have hr : ¬ (x < 256 ∧ y < 192) := by omega
  exact ⟨exec_xlate_of_outOfRange hf hr, exec_cell_of_outOfRange hf hr, fun hl =>
    ⟨exec_bmread_of_outOfRange hf hl hr, whenAdmitted_raises_coordinateRange hf hl hr,
      whenAdmitted_raises_coordinateRange hf hl hr⟩⟩

/-- Settles O40: the four operations have the same first two gates. -/
theorem unloadedRaisesNotLoaded : Obligations.UnloadedRaisesNotLoaded :=
  fun _ _ _ hf hl => ⟨whenAdmitted_raises_notLoaded hf hl, whenAdmitted_raises_notLoaded hf hl,
    whenAdmitted_raises_notLoaded hf hl, whenAdmitted_raises_notLoaded hf hl⟩

end Sys2Proof.Machine
end

section
/-! PROOFS. Where an operation has no next state: the refusals (60_exceptions.md R159, R162) and the model's own stops
(log entry 7). -/

namespace Sys2Proof.Machine

/-- Settles O43: admission is the first gate of every operation. -/
theorem faultIsSticky : Obligations.FaultIsSticky := by
  intro i s h
  cases i with
  | load | xlate | bmread | attrdec | pallut | cresolve | cell | atread | bitsel | pixel | frame | render =>
    exact whenAdmitted_of_fault h

/-- Everything that leaves an operation without a next state, and what it answers then: the counterpart of `Effect`.
RENDER comes to no fault of the model, because it reads what it has just loaded. -/
inductive Stops : Instr → State → Outcome → Prop where
  | faultPending {i s} (h : s.fault ≠ .none) : Stops i s (.refused .faultPending)
  | alreadyLoaded {snap s} (hl : s.loaded = true) : Stops (.load snap) s (.refused .alreadyLoaded)
  | notResetState {snap s} (h : ¬ (s.loaded = false ∧ s.done = false)) :
      Stops (.render snap) s (.refused .notResetState)
  | bmread {x y s f} (hl : s.loaded = true) (hx : x < 256) (hy : y < 192)
      (h : readBm s (bmAddrPort x y).toNat = .error f) : Stops (.bmread x y) s (.fault f)
  | atread {x y s f} (hl : s.loaded = true) (hx : x < 256) (hy : y < 192)
      (h : readAm s (amAddrPort x y).toNat = .error f) : Stops (.atread x y) s (.fault f)
  | pixel {x y s f} (hl : s.loaded = true) (hx : x < 256) (hy : y < 192)
      (h : composePixel palette s x y = .error f) : Stops (.pixel x y) s (.fault f)
  | frame {s f} (hl : s.loaded = true) (h : frameColours palette s = .error f) : Stops .frame s (.fault f)

variable {i : Instr} {s : State} {k : Outcome} {snap : List Byte} {x y : Nat}

/-- The outcome is a next state, or a stop of the operation. -/
def NextOrStops (i : Instr) (s : State) (o : Outcome) : Prop := (∃ t, o = .next t) ∨ Stops i s o

theorem NextOrStops.next (t : State) : NextOrStops i s (.next t) := .inl ⟨t, rfl⟩

theorem NextOrStops.admitted (h : s.fault = .none → NextOrStops i s k) : NextOrStops i s (whenAdmitted s k) := by
  by_cases hf : s.fault = .none
  · rw [whenAdmitted_of_none hf]; exact h hf
  · rw [whenAdmitted_of_fault hf]; exact .inr (.faultPending hf)

theorem NextOrStops.loaded (h : s.loaded = true → NextOrStops i s k) : NextOrStops i s (whenLoaded s k) := by
  cases hl : s.loaded with
  | true => rw [whenLoaded_of_true hl]; exact h hl
  | false => rw [whenLoaded_of_false hl]; exact .next _

theorem NextOrStops.inRange (h : x < 256 → y < 192 → NextOrStops i s k) :
    NextOrStops i s (whenInRange x y s k) := by
  by_cases hr : x < 256 ∧ y < 192
  · rw [whenInRange_of_lt hr.1 hr.2]; exact h hr.1 hr.2
  · rw [whenInRange_of_not hr]; exact .next _

theorem NextOrStops.deliver {α : Type} {r : Except Fault α} {k : α → Outcome}
    (herror : ∀ f, r = .error f → Stops i s (.fault f)) (hok : ∀ v, NextOrStops i s (k v)) :
    NextOrStops i s (deliver r k) := by
  cases r with
  | error f => exact .inr (herror f rfl)
  | ok v => exact hok v

/-- The gates that BMREAD, ATREAD and PIXEL share: admission, LOADED, the range, and then the read. -/
theorem NextOrStops.gatedRead {α : Type} {r : Except Fault α} {k : α → Outcome}
    (herror : s.loaded = true → x < 256 → y < 192 → ∀ f, r = .error f → Stops i s (.fault f))
    (hok : ∀ v, NextOrStops i s (k v)) :
    NextOrStops i s (whenAdmitted s (whenLoaded s (whenInRange x y s (Machine.deliver r k)))) :=
  .admitted fun _ => .loaded fun hl => .inRange fun hx hy => .deliver (herror hl hx hy) hok

theorem loadSnapshot_answers (snap : List Byte) (s : State) : ∃ t, loadSnapshot snap s = .next t := by
  by_cases hn : snap.length < 6939
  · exact ⟨_, loadSnapshot_short hn⟩
  · exact ⟨_, loadSnapshot_long (Nat.not_lt.mp hn)⟩

/-- RENDER from the reset state always answers: it raises, or the snapshot it has loaded gives every byte of the
frame. -/
theorem exec_render_answers (hf : s.fault = .none) (hl : s.loaded = false) (hd : s.done = false) :
    ∃ t, exec (.render snap) s = .next t := by
  by_cases hn : snap.length < 6939
  · exact ⟨_, exec_render_short hf hl hd hn⟩
  · obtain ⟨cs, hcs⟩ := frameColours_of_loadedWith s (Nat.not_lt.mp hn)
    exact ⟨_, (execRender_of_fresh hf hl hd (Nat.not_lt.mp hn)).trans (composeFrame_of_colours rfl hcs)⟩

theorem whenFresh_of_not (h : ¬ (s.loaded = false ∧ s.done = false)) : whenFresh s k = .refused .notResetState :=
  if_neg h

theorem exec_render_of_not_fresh (hf : s.fault = .none) (h : ¬ (s.loaded = false ∧ s.done = false)) :
    exec (.render snap) s = .refused .notResetState :=
  (whenAdmitted_of_none hf).trans (whenFresh_of_not h)

/-- Every operation answers a next state or one of `Stops`: each gate either goes on or is accounted for. -/
theorem exec_nextOrStops (i : Instr) (s : State) : NextOrStops i s (exec i s) := by
  cases i with
  | load snap =>
    refine .admitted fun _ => ?_
    cases hl : s.loaded with
    | true => rw [whenNotLoaded_of_true hl]; exact .inr (.alreadyLoaded hl)
    | false => rw [whenNotLoaded_of_false hl]; exact .inl (loadSnapshot_answers snap s)
  | xlate | cell => exact .admitted fun _ => .inRange fun _ _ => .next _
  | attrdec | pallut | cresolve | bitsel => exact .admitted fun _ => .next _
  | bmread => exact .gatedRead (fun hl hx hy _ => .bmread hl hx hy) fun _ => .next _
  | atread => exact .gatedRead (fun hl hx hy _ => .atread hl hx hy) fun _ => .next _
  | pixel => exact .gatedRead (fun hl hx hy _ => .pixel hl hx hy) fun _ => .next _
  | frame => exact .admitted fun _ => .loaded fun hl => .deliver (fun _ => .frame hl) fun _ => .next _
  | render snap =>
    by_cases hf : s.fault = .none
    · by_cases hfresh : s.loaded = false ∧ s.done = false
      · exact .inl (exec_render_answers hf hfresh.1 hfresh.2)
      · rw [exec_render_of_not_fresh hf hfresh]; exact .inr (.notResetState hfresh)
    · rw [faultIsSticky _ s hf]; exact .inr (.faultPending hf)

/-- Where an operation answers no next state, its answer is one of `Stops`. -/
theorem stops_of_exec {o : Outcome} (h : exec i s = o) (hne : ∀ t, o ≠ .next t) : Stops i s o := by
  obtain ⟨t, ht⟩ | hs := exec_nextOrStops i s
  · exact absurd (h.symm.trans ht) (hne t)
  · exact h ▸ hs

theorem loaded_or_done_iff : (s.loaded = true ∨ s.done = true) ↔ ¬ (s.loaded = false ∧ s.done = false) := by
  cases s.loaded <;> simp

/-- Settles O44: the refusals among `Stops` are these three; a standing fault refuses whatever else holds. -/
theorem refusedExactlyWhenNotAdmitted : Obligations.RefusedExactlyWhenNotAdmitted := by
  intro i s
  constructor
  · rintro ⟨r, h⟩
    cases stops_of_exec h (by simp) with
    | faultPending hf => exact .inl hf
    | alreadyLoaded hl => exact .inr (.inl ⟨hl, _, rfl⟩)
    | notResetState hn => exact .inr (.inr ⟨loaded_or_done_iff.mpr hn, _, rfl⟩)
  · intro h
    by_cases hf : s.fault = .none
    · obtain hne | ⟨hl, snap, rfl⟩ | ⟨hn, snap, rfl⟩ := h
      · exact absurd hf hne
      · exact ⟨_, secondLoadIsRefused snap s hf hl⟩
      · exact ⟨_, exec_render_of_not_fresh hf (loaded_or_done_iff.mp hn)⟩
    · exact ⟨_, faultIsSticky i s hf⟩

/-- Under the invariant every read of a loaded block finds its value, so no operation comes to a fault of the model. -/
theorem State.Inv.not_stops_fault {f : Fault} (hi : s.Inv) : ¬ Stops i s (.fault f) := by
  intro h
  cases h with
  | bmread hl hx hy h =>
    obtain ⟨v, -, hv⟩ := readBm_of_inv hi hl (bmOffset_lt hx hy)
    rw [bmAddrPort_toNat hx hy, hv] at h; cases h
  | atread hl hx hy h =>
    obtain ⟨v, -, hv⟩ := readAm_of_inv hi hl (amOffset_lt hx hy)
    rw [amAddrPort_toNat hx hy, hv] at h; cases h
  | pixel hl hx hy h =>
    obtain ⟨a, byte, -, -, hports⟩ := composePixel_of_inv palette hi hl hx hy
    rw [hports] at h; cases h
  | frame hl h =>
    obtain ⟨cs, hcs⟩ := frameColours_of_inv palette hi hl
    rw [hcs] at h; cases h

theorem exec_ne_fault {f : Fault} (hi : s.Inv) : exec i s ≠ .fault f :=
  fun h => hi.not_stops_fault (stops_of_exec h (by simp))

end Sys2Proof.Machine
end

section
/-! PROOFS. The host's moves: the reads of STATUS and of RASTER, the idle step, and the step that sets DONE
(60_exceptions.md R159, R162). -/

namespace Sys2Proof.Machine

variable {s t : State} {m : HostMove} {rest : List HostMove} {p : Nat}

theorem step_of_pending (h : s.pending = m :: rest) : step s = serve m { s with pending := rest } := by
  rw [step, serveNext, h]

theorem step_of_no_pending (h : s.pending = []) : step s = .next s := by
  rw [step, serveNext, h]

/-- Settles O59. -/
theorem idleStepChangesNothing : Obligations.IdleStepChangesNothing :=
  fun _ => step_of_no_pending

/-- Settles O55: the read of STATUS has no gate. -/
theorem statusReadNeverFails : Obligations.StatusReadNeverFails :=
  fun _ _ => step_of_pending

theorem whenReadable_of_not {k : Outcome} (h : ¬ (s.done = true ∧ s.fault = .none)) :
    whenReadable s k = .refused .rasterNotReadable := if_neg h

/-- Both reads of RASTER have the one gate. -/
theorem serve_read_of_not_readable (hm : m = .readRaster ∨ ∃ p, m = .readPixel p)
    (h : ¬ (s.done = true ∧ s.fault = .none)) : serve m s = .refused .rasterNotReadable := by
  obtain rfl | ⟨p, rfl⟩ := hm <;> exact whenReadable_of_not h

/-- Settles O56: taking the move off `pending` changes neither flag. -/
theorem earlyRasterReadIsRefused : Obligations.EarlyRasterReadIsRefused :=
  fun _ _ _ hpending hm h => (step_of_pending hpending).trans (serve_read_of_not_readable hm h)

/-- Under the invariant with DONE = 1 every pixel is held and has its colour. -/
theorem State.Inv.pixel_of_done (hi : s.Inv) (hd : s.done = true) (hp : p < 49152) :
    ∃ c, Memory.read s.raster p = some c ∧ pixelColourAt palette s p = .ok c := by
  obtain ⟨c, hc⟩ := Option.isSome_iff_exists.mp (hi.raster_full hd p hp)
  exact ⟨c, hc, hi.raster_ok p c hc⟩

theorem readRaster_of_inv (hi : s.Inv) (hd : s.done = true) (hp : p < 49152) :
    ∃ c, Memory.read s.raster p = some c ∧ readRaster s p = .ok c := by
  obtain ⟨c, hc, -⟩ := hi.pixel_of_done hd hp
  exact ⟨c, hc, readSpace_ok hp hc⟩

/-- Under the invariant with DONE = 1 the whole raster reads, in order. -/
theorem collect_readRaster_of_inv (hi : s.Inv) (hd : s.done = true) :
    ∃ cs, collect (readRaster s) (List.range Config.numPixels) = .ok cs ∧ cs.length = 49152 ∧
      ∀ p, p < 49152 → cs[p]? = Memory.read s.raster p := by
  have hread : ∀ p ∈ List.range Config.numPixels,
      readRaster s p = .ok ((Memory.read s.raster p).getD default) := by
    intro p hp
    obtain ⟨c, hc, hok⟩ := readRaster_of_inv hi hd (List.mem_range.mp hp)
    rw [hok, hc, Option.getD_some]
  have hcs := collect_eq_ok hread
  obtain ⟨hlen, hat⟩ := collect_ok_inv hcs
  refine ⟨_, hcs, hlen.trans List.length_range, fun p hp => ?_⟩
  obtain ⟨c, hc, hok⟩ := hat p p (List.getElem?_range hp)
  rw [hc, (readSpace_eq_ok.mp hok).2]

/-- The read of a pixel of a completed raster. -/
theorem serve_readPixel_of_inv (hi : s.Inv) (hd : s.done = true) (hf : s.fault = .none) (hp : p < 49152) :
    ∃ c, Memory.read s.raster p = some c ∧
      serve (.readPixel p) s = .next { s with result := .pixel (pixelBytes Config.hasAlpha c) } := by
  obtain ⟨c, hc, hok⟩ := readRaster_of_inv hi hd hp
  refine ⟨c, hc, (whenReadable_of hd hf).trans ?_⟩
  rw [hok, deliver, give]

/-- The read of the whole of a completed raster. -/
theorem serve_readRaster_of_inv (hi : s.Inv) (hd : s.done = true) (hf : s.fault = .none) :
    ∃ cs : List RGB, cs.length = 49152 ∧ (∀ p, p < 49152 → cs[p]? = Memory.read s.raster p) ∧
      serve .readRaster s = .next { s with result := .raster (rasterBytes Config.hasAlpha cs) } := by
  obtain ⟨cs, hcs, hlen, hat⟩ := collect_readRaster_of_inv hi hd
  refine ⟨cs, hlen, hat, (whenReadable_of hd hf).trans ?_⟩
  rw [hcs, deliver, give]

theorem State.Inv.with_pending (hi : s.Inv) (rest : List HostMove) : ({ s with pending := rest } : State).Inv :=
  hi.congr rfl rfl rfl rfl rfl

/-- Settles O57: the step serves the read in a state that differs in `pending` alone. -/
theorem completedRasterIsDelivered : Obligations.CompletedRasterIsDelivered := by
  intro s rest hi hd hf
  have hi' := hi.with_pending rest
  refine ⟨fun p hp hpending => ?_, fun hpending => ?_⟩
  · obtain ⟨c, hc, hserve⟩ := serve_readPixel_of_inv hi' hd hf hp
    exact ⟨c, hc, (step_of_pending hpending).trans hserve⟩
  · obtain ⟨cs, hlen, hat, hserve⟩ := serve_readRaster_of_inv hi' hd hf
    exact ⟨cs, hlen, hat, (step_of_pending hpending).trans hserve⟩

theorem serveOperation_ne_fault {f : Fault} (r : Request) (hi : s.Inv) : serveOperation r s ≠ .fault f := by
  cases hdec : decode r with
  | ok i => rw [serveOperation_of_ok s hdec]; exact exec_ne_fault hi
  | error e => rw [serveOperation_of_error s hdec]; simp

theorem readable_of_fault {k : Outcome} {f : Fault} (h : whenReadable s k = .fault f) :
    s.done = true ∧ s.fault = .none := by
  by_contra hnot
  rw [whenReadable_of_not hnot] at h; cases h

/-- Of the host's moves only the read of a pixel index outside RASTER comes to a fault of the model (log entry 7). -/
theorem serve_fault {f : Fault} (hi : s.Inv) (h : serve m s = .fault f) : ∃ p, m = .readPixel p ∧ 49152 ≤ p := by
  cases m with
  | operation r => exact absurd h (serveOperation_ne_fault r hi)
  | reset => cases h
  | readStatus => cases h
  | readPixel p =>
    obtain ⟨hd, hf⟩ := readable_of_fault h
    refine ⟨p, rfl, Nat.le_of_not_lt fun hp => ?_⟩
    obtain ⟨c, -, hc⟩ := serve_readPixel_of_inv hi hd hf hp
    rw [hc] at h; cases h
  | readRaster =>
    obtain ⟨hd, hf⟩ := readable_of_fault h
    obtain ⟨cs, -, -, hcs⟩ := serve_readRaster_of_inv hi hd hf
    rw [hcs] at h; cases h

/-- Settles O45: no operation stops under the invariant, and of the host's moves one does. -/
theorem nothingElseStopsTheMachine : Obligations.NothingElseStopsTheMachine := by
  refine ⟨fun _ _ _ => exec_ne_fault, fun s f hi h => ?_⟩
  cases hpending : s.pending with
  | nil => rw [step_of_no_pending hpending] at h; cases h
  | cons m rest =>
    rw [step_of_pending hpending] at h
    obtain ⟨p, rfl, hp⟩ := serve_fault (hi.with_pending rest) h
    exact ⟨p, rest, rfl, hp⟩

/-- Only an operation sets DONE, and it leaves no fault; it was admitted, so there was none before. -/
theorem no_fault_of_step_sets_done (hd : s.done = false) (h : step s = .next t) (htd : t.done = true) :
    s.fault = .none ∧ t.fault = .none := by
  obtain ⟨-, rfl⟩ | ⟨r, rest, i, -, -, hexec⟩ | ⟨rest, -, rfl⟩ | ⟨m, rest, r, -, -, rfl⟩ := step_cases h
  · exact absurd (hd.symm.trans htd) (by decide)
  · obtain ⟨hf, he⟩ := exec_effect hexec
    obtain hkeep | ⟨-, hfault, -⟩ := he.done_eq_or_frames
    · exact absurd (hd.symm.trans (hkeep.symm.trans htd)) (by decide)
    · exact ⟨hf, hfault.trans hf⟩
  · exact absurd (reset_done.symm.trans htd) (by decide)
  · exact absurd (hd.symm.trans htd) (by decide)

theorem State.Inv.loaded_of_done (hi : s.Inv) (hd : s.done = true) : s.loaded = true := by
  cases hl : s.loaded with
  | true => rfl
  | false =>
    obtain ⟨-, -, -, hnot⟩ := hi.unloaded hl
    exact absurd (hd.symm.trans hnot) (by decide)

/-- Settles O52: the state after the step has the invariant, which says what DONE = 1 stands for. -/
theorem doneIsSetOnlyOnCompletion : Obligations.DoneIsSetOnlyOnCompletion := by
  intro s t hi hd h htd
  have hit : t.Inv := step_keeps_inv hi h
  obtain ⟨hf, hft⟩ := no_fault_of_step_sets_done hd h htd
  exact ⟨hf, ⟨hit.loaded_of_done htd, htd, hft⟩, fun _ => hit.pixel_of_done htd⟩

end Sys2Proof.Machine
end

section
/-! PROOFS. The two ends of a conversion, and the host's reset (70_reset_and_hazards.md R170, R179). -/

namespace Sys2Proof.Machine

/-- After a frame the block has completed and every pixel is held. -/
theorem framedWith_completed {s : State} {cs : List RGB} (hf : s.fault = .none) (hl : s.loaded = true)
    (hcs : frameColours palette s = .ok cs) :
    (framedWith cs s).Completed ∧ ∀ p, p < 49152 → ∃ c, Memory.read (framedWith cs s).raster p = some c :=
  ⟨⟨hl, rfl, hf⟩, fun p hp => ((frameColours_read hcs).2 p hp).imp fun _ => And.left⟩

/-- Settles O53: a short snapshot raises FormatError; a long one gives every byte of the frame. -/
theorem renderReachesAnEnd : Obligations.RenderReachesAnEnd := by
  intro snap s hf hl hd
  obtain hn | hn := Nat.lt_or_ge snap.length 6939
  · exact ⟨_, exec_render_short hf hl hd hn, .inr ⟨by simp [State.Faulted], rfl, hl, hd, rfl⟩⟩
  · obtain ⟨cs, hcs⟩ := frameColours_of_loadedWith s hn
    exact ⟨_, (execRender_of_fresh hf hl hd hn).trans (composeFrame_of_colours rfl hcs),
      .inl (framedWith_completed hf rfl hcs)⟩

/-- Settles O54: the reset has no gate, and it keeps of the state the moves that still stand. -/
theorem hostReset : Obligations.HostReset :=
  fun _ _ => step_of_pending

end Sys2Proof.Machine
end
